-- ==== Sys2Proof/Word.lean ====
section
/-! DEFINITION. The byte, the register index and the narrowing of an exact integer to a byte
(spec/00_scope.md R7, R8). -/

namespace Sys2Proof

/-- A `u8`: a byte, always read as unsigned (R7). -/
abbrev Byte := BitVec 8

/-- A register index 0..7 (R20).  The operand byte of an instruction becomes one only through
`regIdx` (R78). -/
abbrev Reg := Fin 8

/-- `wrap8(v) = v mod 256`, the non-negative remainder of an exact integer (R8). -/
def wrap8 (v : Int) : Byte := BitVec.ofInt 8 v

/-- The operand byte that names a register (R71: the whole byte is the index). -/
def regByte (r : Reg) : Byte := BitVec.ofNat 8 r.val

end Sys2Proof
end

