-- ==== Sys2Proof/Syntax.lean ====
section
/-! DEFINITION. The instructions: one constructor for each row of spec/opcode_table.json, with the
operands of spec/30_encoding.md R71, R72 in byte order. -/

namespace Sys2Proof

/-- The 19 instructions (spec/00_scope.md R2).  `r`, `a`, `b` are register operands, `imm` is the one
immediate of the set (R79). -/
inductive Instr where
  /-- HLT, format N (R90) -/
  | hlt
  /-- PRN r, format R (R91) -/
  | prn (r : Reg)
  /-- PRA r, format R (R92) -/
  | pra (r : Reg)
  /-- LDI r, imm, format RI (R100) -/
  | ldi (r : Reg) (imm : Byte)
  /-- LD a, b, format RR: `a` destination, `b` address (R101) -/
  | ld (a b : Reg)
  /-- ST a, b, format RR: `a` address, `b` value (R102) -/
  | st (a b : Reg)
  /-- ADD a, b, format RR (R112) -/
  | add (a b : Reg)
  /-- MULT a, b, format RR (R113) -/
  | mult (a b : Reg)
  /-- CMP a, b, format RR (R114) -/
  | cmp (a b : Reg)
  /-- INC r, format R (R115) -/
  | inc (r : Reg)
  /-- DEC r, format R (R116) -/
  | dec (r : Reg)
  /-- PUSH r, format R (R130) -/
  | push (r : Reg)
  /-- POP r, format R (R131) -/
  | pop (r : Reg)
  /-- CALL r, format R (R140) -/
  | call (r : Reg)
  /-- RET, format N (R141) -/
  | ret
  /-- JMP r, format R (R142) -/
  | jmp (r : Reg)
  /-- JEQ r, format R (R143) -/
  | jeq (r : Reg)
  /-- JNE r, format R (R144) -/
  | jne (r : Reg)
  /-- IRET, format N (R160) -/
  | iret
  deriving DecidableEq, Repr

end Sys2Proof
end

