-- ==== Sys2Proof/WellFormed.lean ====
section
/-! DEFINITION. The four instruction formats (spec/30_encoding.md R71, R72) and the well-formedness of
operand bytes: their number, and the range of each register byte (R78).  A term of `Instr` holds its
register operands as indices 0..7, so an ill-formed operand can only stand in the bytes; the checks
here are the ones the bytes must pass, and `Instr.wellFormed` says that an instruction's own operand
bytes pass them. -/

namespace Sys2Proof

/-- The formats of R71. -/
inductive Format where
  /-- opcode only -/
  | n
  /-- opcode, register -/
  | r
  /-- opcode, register, register -/
  | rr
  /-- opcode, register, immediate -/
  | ri
  deriving DecidableEq, Repr

/-- The number of operand bytes (R72). -/
def Format.operandCount : Format → Nat
  | .n => 0
  | .r => 1
  | .rr => 2
  | .ri => 2

/-- The instruction length in bytes: the opcode and the operand bytes (R70, R81). -/
def Format.length (f : Format) : Nat := 1 + f.operandCount

/-- A byte that names a register (R78: never masked, so only 0..7). -/
def registerByteOk (b : Byte) : Bool := decide (b.toNat < 8)

/-- Operand bytes that fit a format: exactly its number of them, and every register byte 0..7; the
immediate may be any byte (R76, R78). -/
def operandsOk : Format → List Byte → Bool
  | .n, [] => true
  | .r, [b1] => registerByteOk b1
  | .rr, [b1, b2] => registerByteOk b1 && registerByteOk b2
  | .ri, [b1, _] => registerByteOk b1
  | _, _ => false

/-- The format of each instruction (R72). -/
def Instr.format : Instr → Format
  | .hlt => .n
  | .prn _ => .r
  | .pra _ => .r
  | .ldi _ _ => .ri
  | .ld _ _ => .rr
  | .st _ _ => .rr
  | .add _ _ => .rr
  | .mult _ _ => .rr
  | .cmp _ _ => .rr
  | .inc _ => .r
  | .dec _ => .r
  | .push _ => .r
  | .pop _ => .r
  | .call _ => .r
  | .ret => .n
  | .jmp _ => .r
  | .jeq _ => .r
  | .jne _ => .r
  | .iret => .n

/-- The operand bytes of each instruction, in address order (R71). -/
def Instr.operandBytes : Instr → List Byte
  | .hlt => []
  | .prn r => [regByte r]
  | .pra r => [regByte r]
  | .ldi r imm => [regByte r, imm]
  | .ld a b => [regByte a, regByte b]
  | .st a b => [regByte a, regByte b]
  | .add a b => [regByte a, regByte b]
  | .mult a b => [regByte a, regByte b]
  | .cmp a b => [regByte a, regByte b]
  | .inc r => [regByte r]
  | .dec r => [regByte r]
  | .push r => [regByte r]
  | .pop r => [regByte r]
  | .call r => [regByte r]
  | .ret => []
  | .jmp r => [regByte r]
  | .jeq r => [regByte r]
  | .jne r => [regByte r]
  | .iret => []

/-- An instruction is well formed when its operand bytes fit its format. -/
def Instr.wellFormed (i : Instr) : Bool := operandsOk i.format i.operandBytes

end Sys2Proof
end

