-- ==== Sys2Proof/Decode.lean ====
section
/-! DEFINITION. Decode and encode, from spec/30_encoding.md R70 to R82: the opcode bytes (R74), the
operand check `RegIdx` (R78), the decoder, total on any bytes and rejecting by name, and the encoder
written from the same opcode bytes. -/

namespace Sys2Proof

/-! ## Opcode bytes: the parameter `OPCODE_OF` at its default, the table of R74 (decision D5; log 1) -/

def opHLT : Byte := 0b00000001
def opPRN : Byte := 0b01000111
def opPRA : Byte := 0b01001000
def opLDI : Byte := 0b10000010
def opLD : Byte := 0b10000011
def opST : Byte := 0b10000100
def opADD : Byte := 0b10100000
def opMULT : Byte := 0b10100010
def opCMP : Byte := 0b10100111
def opINC : Byte := 0b01100101
def opDEC : Byte := 0b01100110
def opPUSH : Byte := 0b01000101
def opPOP : Byte := 0b01000110
def opCALL : Byte := 0b01010000
def opRET : Byte := 0b00010001
def opJMP : Byte := 0b01010100
def opJEQ : Byte := 0b01010101
def opJNE : Byte := 0b01010110
def opIRET : Byte := 0b00010011

/-! ## The decoder -/

/-- Why bytes are no instruction.  The order in which they are found is the order of R173. -/
inductive DecodeError where
  /-- there is no opcode byte -/
  | noOpcode
  /-- the opcode byte is none of R74 (R76) -/
  | illegalOpcode (op : Byte)
  /-- operand byte `k` (1 or 2) of the instruction is missing (R77) -/
  | missingOperand (op : Byte) (k : Nat)
  /-- a register operand byte above 7 (R78) -/
  | badRegister (op f : Byte)
  deriving DecidableEq, Repr

/-- What an opcode byte selects: the instruction, waiting for the operands of its format (R71). -/
inductive Shape where
  | n (i : Instr)
  | r (mk : Reg → Instr)
  | rr (mk : Reg → Reg → Instr)
  | ri (mk : Reg → Byte → Instr)

/-- The opcode table (R72, R74). -/
def opcodeTable : List (Byte × Shape) :=
  [ (opHLT, .n .hlt),
    (opPRN, .r .prn),
    (opPRA, .r .pra),
    (opLDI, .ri .ldi),
    (opLD, .rr .ld),
    (opST, .rr .st),
    (opADD, .rr .add),
    (opMULT, .rr .mult),
    (opCMP, .rr .cmp) ] ++
  [ (opINC, .r .inc),
    (opDEC, .r .dec),
    (opPUSH, .r .push),
    (opPOP, .r .pop),
    (opCALL, .r .call),
    (opRET, .n .ret),
    (opJMP, .r .jmp),
    (opJEQ, .r .jeq),
    (opJNE, .r .jne),
    (opIRET, .n .iret) ]

/-- The row of an opcode byte: exact byte equality, no field of the byte decoded apart (R73). -/
def lookupOpcode (op : Byte) : Option Shape :=
  (opcodeTable.find? (fun row => row.1 == op)).map (fun row => row.2)

/-- `RegIdx(f)`: the register index a byte names, never masked (R78). -/
def regIdx (f : Byte) : Option Reg :=
  if h : f.toNat < 8 then some ⟨f.toNat, h⟩ else none

/-- The operands: first that every operand byte is there, then the register checks in byte order
(R77, R173). -/
def decodeOperands (op : Byte) : Shape → List Byte → Except DecodeError (Instr × List Byte)
  | .n i, rest => .ok (i, rest)
  | .r _, [] => .error (.missingOperand op 1)
  | .r mk, b1 :: rest =>
    match regIdx b1 with
    | none => .error (.badRegister op b1)
    | some r => .ok (mk r, rest)
  | .rr _, [] => .error (.missingOperand op 1)
  | .rr _, [_] => .error (.missingOperand op 2)
  | .rr mk, b1 :: b2 :: rest =>
    match regIdx b1 with
    | none => .error (.badRegister op b1)
    | some a =>
      match regIdx b2 with
      | none => .error (.badRegister op b2)
      | some b => .ok (mk a b, rest)
  | .ri _, [] => .error (.missingOperand op 1)
  | .ri _, [_] => .error (.missingOperand op 2)
  | .ri mk, b1 :: b2 :: rest =>
    match regIdx b1 with
    | none => .error (.badRegister op b1)
    | some r => .ok (mk r b2, rest)

/-- The instruction at the head of a list of bytes, and the bytes after it (R70, R73, R81). -/
def decode : List Byte → Except DecodeError (Instr × List Byte)
  | [] => .error .noOpcode
  | op :: rest =>
    match lookupOpcode op with
    | none => .error (.illegalOpcode op)
    | some shape => decodeOperands op shape rest

/-! ## The encoder -/

/-- The opcode byte of an instruction (R74). -/
def opcodeOf : Instr → Byte
  | .hlt => opHLT
  | .prn _ => opPRN
  | .pra _ => opPRA
  | .ldi _ _ => opLDI
  | .ld _ _ => opLD
  | .st _ _ => opST
  | .add _ _ => opADD
  | .mult _ _ => opMULT
  | .cmp _ _ => opCMP
  | .inc _ => opINC
  | .dec _ => opDEC
  | .push _ => opPUSH
  | .pop _ => opPOP
  | .call _ => opCALL
  | .ret => opRET
  | .jmp _ => opJMP
  | .jeq _ => opJEQ
  | .jne _ => opJNE
  | .iret => opIRET

/-- The bytes of an instruction in increasing address order (R56, R71). -/
def encode (i : Instr) : List Byte := opcodeOf i :: i.operandBytes

/-! ## The opcode table's numbering of an instruction's bits -/

/-- The three bytes of a table word: byte `k` is bits `8k+7..8k`, and every bit from `nbits` up is 0
(the longest instruction has three bytes, R70). -/
def tableWordBytes (nbits w : Nat) : List Byte :=
  [ BitVec.ofNat 8 (w % 2 ^ nbits),
    BitVec.ofNat 8 (w % 2 ^ nbits / 2 ^ 8),
    BitVec.ofNat 8 (w % 2 ^ nbits / 2 ^ 16) ]

/-- The instruction the decoder reads from a table word. -/
def decodeTableWord (nbits w : Nat) : Option Instr :=
  match decode (tableWordBytes nbits w) with
  | .ok (i, _) => some i
  | .error _ => none

end Sys2Proof
end

