-- ==== Sys2Proof/Config.lean ====
section
/-! DEFINITION. The parameters of spec/00_scope.md R6 that the reset state or the environment needs:
the reset values, and the two that stay open, which have no body.  The opcode bytes (`OPCODE_OF`) stand
in Decode.lean and the stack bounds and the vector cell in Machine/Ops.lean, beside what uses them. -/

namespace Sys2Proof

/-- `RESET_GPR`, the reset value of R0..R5 (R35, decision D2; log 2: DESIGN CHOICE, unsafe). -/
def Config.resetGpr : Byte := 0

/-- The reset value of R6, the interrupt status (R35, decision D3; log 2: DESIGN CHOICE, unsafe). -/
def Config.resetIs : Byte := 0

/-- `SP_RESET` = `STACK_TOP` = 244 (R6, R29, R35). -/
def Config.spReset : Byte := 244

/-- `TIMER_ENABLED`, OPEN in R6: nothing constrains it (log 3, safe). -/
opaque Config.timerEnabled : Bool

/-- The timer's draw for the n-th sample of a run (R43, R190, decision D16): a free Boolean, one for
each RUNNING instruction step that stays RUNNING, under no law (log 3, safe). -/
opaque Config.tick : Nat → Bool

end Sys2Proof
end

