-- ==== Sys2Proof/Machine/State.lean ====
section
/-! DEFINITION. The state of the core as plain data (spec/10_state.md R20 to R36), the reasons a step
can stop, and the state after reset (R35, spec/70_reset_and_hazards.md R210, R211). -/

namespace Sys2Proof.Machine

/-- The memory `M`: the cells that do not read as `Memory.unlisted`, in rising order of address
(the canonical form is `Memory.wf`, Machine/Ops.lean).  256 cells exist (R34, R50). -/
abbrev Memory := List Host.Cell

/-- The engine state (R30, spec/60_exceptions.md R176). -/
inductive Mode where
  /-- the outer loop -/
  | running
  /-- the inner loop of an interrupt -/
  | servicing
  /-- normal end, entered by HLT -/
  | halted
  /-- end by a fatal failure -/
  | faulted
  deriving DecidableEq, Repr

/-- The failures of spec/60_exceptions.md R171. -/
inductive FailureKind where
  | illegalInstruction
  | addressOutOfRange
  | stackOverflow
  | stackUnderflow
  /-- reserved: no step raises it (R175) -/
  | unsupportedOperation
  deriving DecidableEq, Repr

/-- The `detail` of a failure (R171). -/
inductive Detail where
  /-- `(opcode, op)` -/
  | opcode (op : Byte)
  /-- `(memory, a)` -/
  | memory (a : Int)
  /-- `(register, f)` -/
  | register (f : Byte)
  /-- `(value, v)` -/
  | value (v : Nat)
  /-- `(sp, x[7])` -/
  | sp (v : Byte)
  deriving DecidableEq, Repr

/-- What `raise <Failure>(info)` carries (spec/00_scope.md R9). -/
structure Failure where
  kind : FailureKind
  detail : Detail
  deriving DecidableEq, Repr

/-- The fault record `(kind, code, pc, opcode, detail)` (R31, R174). -/
structure FaultRecord where
  kind : FailureKind
  code : Nat
  pc : Nat
  opcode : Option Byte
  detail : Detail
  deriving DecidableEq, Repr

/-- The kind of an output event (R41). -/
inductive OutKind where
  /-- a numeral, from PRN -/
  | dec
  /-- a character, from PRA -/
  | chr
  deriving DecidableEq, Repr

/-- An output event `(kind, v)` (R41). -/
structure OutEvent where
  kind : OutKind
  value : Byte
  deriving DecidableEq, Repr

/-- The state of the core.  Every field but `draws` is named by spec/10_state.md. -/
structure State where
  /-- `x[0]`..`x[7]`; `x[6]` is IS and `x[7]` is SP (R20, R28, R29) -/
  regs : Vector Byte 8
  /-- the program counter, 0..256, never wrapped (R22) -/
  pc : Nat
  /-- the opcode byte most recently fetched (R24) -/
  ir : Byte
  /-- `FL`: bit 0 EQUAL, bit 1 GREATER, bit 2 LESS (R25) -/
  fl : BitVec 3
  /-- the 256 cells (R34, R51) -/
  mem : Memory
  /-- the engine state (R30) -/
  mode : Mode
  /-- the fault record, or none (R31) -/
  fault : Option FaultRecord
  /-- the output trace, oldest event first (R33) -/
  out : List OutEvent
  /-- how many timer draws have been sampled: the MODEL's own field, the argument of the free value
  `Config.tick` (R43; log 3) -/
  draws : Nat
  deriving DecidableEq, Repr

/-- Why `step` has no next state.  No instruction raises one: a failing instruction takes the spec's
own failure, a next state in FAULTED (R177). -/
inductive Fault where
  /-- raised by `step` in HALTED: the spec gives HALTED no step (R178, R180); safe -/
  | haltedHasNoStep
  /-- raised by `step` in FAULTED: the spec gives FAULTED no step (R177, R180); safe -/
  | faultedHasNoStep
  deriving DecidableEq, Repr

/-- Why a meaning is refused. -/
inductive Refusal where
  /-- an instruction without a meaning in `exec`; no arm raises it; safe -/
  | notModelled (mnemonic : String)
  /-- raised by `State.resetWithImage` for an image longer than 256 bytes or with an element above 255
  (R212, decision D23); safe -/
  | imageNotAccepted
  deriving DecidableEq, Repr

/-- The state right after reset with the empty image: the values of R35. -/
def State.reset : State where
  regs := #v[Config.resetGpr, Config.resetGpr, Config.resetGpr, Config.resetGpr, Config.resetGpr,
    Config.resetGpr, Config.resetIs, Config.spReset]
  pc := 0
  ir := 0
  fl := 0
  mem := []
  mode := .running
  fault := none
  out := []
  draws := 0

end Sys2Proof.Machine
end

