-- ==== Sys2Proof/Machine/Ops.lean ====
section
/-! DEFINITION. The named operations over memory, registers and the stack (spec/20_memory.md R52 to
R60), entering FAULTED (spec/60_exceptions.md R177), the interrupt entry (R184) and the return from it
(spec/45_interrupt_return.md R160). -/

namespace Sys2Proof.Machine

/-! ## Parameters of R6 -/

/-- `MEM_SIZE` (R6, R50). -/
def memSize : Nat := 256

/-- `STACK_LOW`, the lowest legal stack cell (R6, decision D9; log 5). -/
def stackLow : Nat := 0

/-- `STACK_TOP` = `SP_RESET` = 244 (R6, R60). -/
def stackTop : Nat := Config.spReset.toNat

/-- `INT_VECTOR` (R6, R185). -/
def intVector : Nat := 0xF8

/-- The code of each failure (R171, decision D11). -/
def FailureKind.code : FailureKind → Nat
  | .illegalInstruction => 1
  | .addressOutOfRange => 2
  | .stackOverflow => 3
  | .stackUnderflow => 4
  | .unsupportedOperation => 5

/-! ## Memory cells -/

/-- What an unlisted cell reads as: memory is zero-initialized (R51, R210). -/
def Memory.unlisted : Byte := 0

/-- The byte in cell `a`. -/
def Memory.read : Memory → Nat → Byte
  | [], _ => Memory.unlisted
  | (k, v) :: rest, a => if k = a then v else Memory.read rest a

/-- Memory without cell `a`: it then reads as an unlisted cell. -/
def Memory.erase : Memory → Nat → Memory
  | [], _ => []
  | (k, w) :: rest, a =>
    if k = a then Memory.erase rest a else (k, w) :: Memory.erase rest a

/-- Cell `a`, not yet listed, put in at its place. -/
def Memory.insert : Memory → Nat → Byte → Memory
  | [], a, v => [(a, v)]
  | (k, w) :: rest, a, v =>
    if a < k then (a, v) :: (k, w) :: rest else (k, w) :: Memory.insert rest a v

/-- Cell `a` set to `v`, in canonical form: a value that an unlisted cell reads as is not listed. -/
def Memory.write (m : Memory) (a : Nat) (v : Byte) : Memory :=
  if v = Memory.unlisted then m.erase a else (m.erase a).insert a v

/-- The canonical form from address `lo` on: addresses rising and below 256, no cell listed that reads
as an unlisted one. -/
def Memory.wfFrom : Nat → Memory → Bool
  | _, [] => true
  | lo, (k, v) :: rest =>
    decide (lo ≤ k) && decide (k < memSize) && decide (v ≠ Memory.unlisted) &&
      Memory.wfFrom (k + 1) rest

/-- The canonical form of memory: equal memories are equal lists. -/
def Memory.wf (m : Memory) : Bool := Memory.wfFrom 0 m

/-- `MemRead(a, 1)` (R52). -/
def memRead (s : State) (a : Int) : Except Failure Byte :=
  if a < 0 ∨ a > 255 then .error ⟨.addressOutOfRange, .memory a⟩
  else .ok (s.mem.read a.toNat)

/-- `MemWrite(a, 1, v)` (R53). -/
def memWrite (s : State) (a : Int) (v : Byte) : Except Failure State :=
  if a < 0 ∨ a > 255 then .error ⟨.addressOutOfRange, .memory a⟩
  else .ok { s with mem := s.mem.write a.toNat v }

/-! ## Registers, program counter, output -/

/-- `x[r]` (R9, R20): every register is readable, none is hard-wired (R21). -/
def State.reg (s : State) (r : Reg) : Byte := s.regs[r]

/-- `x[r] <- v` (R9, R20): every register is writable (R21). -/
def State.setReg (s : State) (r : Reg) (v : Byte) : State := { s with regs := s.regs.set r v }

/-- The interrupt-status register IS (R28). -/
def regIS : Reg := 6

/-- The stack pointer SP (R29). -/
def regSP : Reg := 7

/-- `pc <- target` (R9). -/
def State.setPc (s : State) (target : Nat) : State := { s with pc := target }

/-- `pc <- p + len`, as an unbounded integer (R23, R80). -/
def State.advance (s : State) (len : Nat) : State := { s with pc := s.pc + len }

/-- `FL <- v` (R9, R26). -/
def State.setFl (s : State) (v : BitVec 3) : State := { s with fl := v }

/-- `emit(kind, v)`: the event is appended to the trace (R41). -/
def State.emit (s : State) (kind : OutKind) (v : Byte) : State :=
  { s with out := s.out ++ [⟨kind, v⟩] }

/-! ## The stack -/

/-- The stack bounds, checked in the order of the spec: the lowest cell touched `lo` against
`STACK_LOW`, then the highest `hi` against `STACK_TOP`; the detail is SP (R58, R59, R160, R184). -/
def stackCheck (s : State) (lo hi : Int) : Except Failure Unit :=
  if lo < stackLow then .error ⟨.stackOverflow, .sp (s.reg regSP)⟩
  else if hi ≥ stackTop then .error ⟨.stackUnderflow, .sp (s.reg regSP)⟩
  else .ok ()

/-- `StackPush(v)` (R58): SP is decremented first, then the new top is written. -/
def stackPush (v : Nat) (s : State) : Except Failure State := do
  let a : Int := (s.reg regSP).toNat - 1
  stackCheck s a a
  if v > 255 then .error ⟨.addressOutOfRange, .value v⟩
  else memWrite (s.setReg regSP (wrap8 a)) a (BitVec.ofNat 8 v)

/-- `StackPop()` (R59): the top is read, then SP is incremented. -/
def stackPop (s : State) : Except Failure (Byte × State) := do
  let a : Int := (s.reg regSP).toNat
  stackCheck s a a
  let v ← memRead s a
  .ok (v, s.setReg regSP (wrap8 (a + 1)))

/-- `StackPush(x[i])` for each register of a list, in the list's order (R184). -/
def pushRegs : List Reg → State → Except Failure State
  | [], s => .ok s
  | r :: rest, s => do
    let t ← stackPush (s.reg r).toNat s
    pushRegs rest t

/-- `x[i] <- StackPop()` for each register of a list, in the list's order (R160). -/
def popRegs : List Reg → State → Except Failure State
  | [], s => .ok s
  | r :: rest, s => do
    let (v, t) ← stackPop s
    popRegs rest (t.setReg r v)

/-! ## Failures -/

/-- Entering FAULTED (R177): the state before the step, but for the mode and the fault record (R174).
`opcode` is `none` when the opcode fetch failed or the step was an interrupt entry. -/
def State.enterFaulted (s : State) (f : Failure) (opcode : Option Byte) : State :=
  { s with mode := .faulted, fault := some ⟨f.kind, f.kind.code, s.pc, opcode, f.detail⟩ }

/-- The end of an instruction whose opcode byte is `op`: the state its rule computed with `ir` written
by the fetch (R24, R77), or FAULTED built from the state before the step (R10, R177). -/
def conclude (op : Byte) (s : State) :
    Except Failure State → Host.Outcome State Fault Refusal
  | .ok t => .next { t with ir := op }
  | .error f => .next (s.enterFaulted f (some op))

/-! ## The interrupt: entry and return -/

/-- The body of the interrupt entry (R184): the checks for all eight pushes, the pushes (the
interrupted `pc`, then R0 first and R6 last), the vector, the mode. -/
def enterInterrupt (s : State) : Except Failure State := do
  let s0 : Int := (s.reg regSP).toNat
  stackCheck s (s0 - 8) (s0 - 1)
  if s.pc > 255 then .error ⟨.addressOutOfRange, .value s.pc⟩
  else do
    let t ← stackPush s.pc s
    let u ← pushRegs [0, 1, 2, 3, 4, 5, 6] t
    let handler ← memRead u intVector
    .ok { u with pc := handler.toNat, mode := .servicing }

/-- The interrupt entry as a step of its own (R182, R184): no instruction is fetched, so a failure
records no opcode (R174). -/
def interruptEntry (s : State) : Host.Outcome State Fault Refusal :=
  match enterInterrupt s with
  | .ok t => .next t
  | .error f => .next (s.enterFaulted f none)

/-- The return from an interrupt (R160): the check for all eight pops, R6 first and R0 last, then
`pc`, then R6 cleared. -/
def returnFromInterrupt (s : State) : Except Failure State := do
  let s0 : Int := (s.reg regSP).toNat
  stackCheck s s0 (s0 + 7)
  let t ← popRegs [6, 5, 4, 3, 2, 1, 0] s
  let (target, u) ← stackPop t
  .ok ((u.setPc target.toNat).setReg regIS 0)

end Sys2Proof.Machine
end

