-- ==== Sys2Proof/Machine/Flags.lean ====
section
/-! DEFINITION. The flags register `FL` (spec/10_state.md R25 to R27): its one-hot values, the
comparison that is the only writer (spec/42_alu.md R114), and the test that is the only reader
(spec/44_control_transfer.md R143, R144). -/

namespace Sys2Proof.Machine

def flagEqual : BitVec 3 := 0b001
def flagGreater : BitVec 3 := 0b010
def flagLess : BitVec 3 := 0b100

/-- The value CMP writes: unsigned, all three bits, exactly one set (R114). -/
def compareFlags (x y : Byte) : BitVec 3 :=
  if x.toNat < y.toNat then flagLess
  else if x.toNat > y.toNat then flagGreater
  else flagEqual

/-- `FL = EQUAL`, the whole register (R143, R144). -/
def State.isEqual (s : State) : Bool := decide (s.fl = flagEqual)

/-- The legal values of `FL` (R27). -/
def flagsLegal (v : BitVec 3) : Bool :=
  decide (v = 0) || decide (v = flagEqual) || decide (v = flagGreater) || decide (v = flagLess)

end Sys2Proof.Machine
end

