-- ==== Sys2Proof/Machine/Alu.lean ====
section
/-! DEFINITION. ADD, MULT, CMP, INC, DEC (spec/42_alu.md): the exact result on integers, then `wrap8`
(R111). -/

namespace Sys2Proof.Machine

/-- `x[d] <- wrap8(result)` and the advance past an instruction of `len` bytes (R110, R111). -/
def aluWrite (d : Reg) (result : Int) (len : Nat) (s : State) : State :=
  (s.setReg d (wrap8 result)).advance len

/-- R112 -/
def execAdd (a b : Reg) (s : State) : Host.Outcome State Fault Refusal :=
  conclude opADD s (.ok (aluWrite a ((s.reg a).toNat + (s.reg b).toNat) 3 s))

/-- R113 -/
def execMult (a b : Reg) (s : State) : Host.Outcome State Fault Refusal :=
  conclude opMULT s (.ok (aluWrite a ((s.reg a).toNat * (s.reg b).toNat) 3 s))

/-- R114 -/
def execCmp (a b : Reg) (s : State) : Host.Outcome State Fault Refusal :=
  conclude opCMP s (.ok ((s.setFl (compareFlags (s.reg a) (s.reg b))).advance 3))

/-- R115 -/
def execInc (r : Reg) (s : State) : Host.Outcome State Fault Refusal :=
  conclude opINC s (.ok (aluWrite r ((s.reg r).toNat + 1) 2 s))

/-- R116 -/
def execDec (r : Reg) (s : State) : Host.Outcome State Fault Refusal :=
  conclude opDEC s (.ok (aluWrite r ((s.reg r).toNat - 1) 2 s))

end Sys2Proof.Machine
end

