-- ==== Sys2Proof/Machine/Operands.lean ====
section
/-! DEFINITION. The operand forms (spec/30_encoding.md R71, spec/41_load_store.md R103): a register, and
the cell a register addresses, with no offset, no scaling and no update of the register.  The
immediate of LDI is the byte itself (R79). -/

namespace Sys2Proof.Machine

/-- The effective address of a register-indirect operand (R103). -/
def State.addressIn (s : State) (r : Reg) : Nat := (s.reg r).toNat

/-- The byte a register-indirect operand addresses (R101). -/
def loadVia (s : State) (r : Reg) : Except Failure Byte := memRead s (s.addressIn r)

/-- A byte stored to the cell a register addresses (R102). -/
def storeVia (s : State) (r : Reg) (v : Byte) : Except Failure State := memWrite s (s.addressIn r) v

/-- The target of a control transfer: the value of a register (R145). -/
def State.targetIn (s : State) (r : Reg) : Nat := (s.reg r).toNat

end Sys2Proof.Machine
end

