-- ==== Sys2Proof/Machine/Control.lean ====
section
/-! DEFINITION. CALL, RET, JMP, JEQ, JNE (spec/44_control_transfer.md). -/

namespace Sys2Proof.Machine

/-- R140: the return address `p + 2` is pushed, and the target is read after the push. -/
def execCall (r : Reg) (s : State) : Host.Outcome State Fault Refusal :=
  conclude opCALL s (do
    let t ← stackPush (s.pc + 2) s
    .ok (t.setPc (t.targetIn r)))

/-- R141 -/
def execRet (s : State) : Host.Outcome State Fault Refusal :=
  conclude opRET s (do
    let (v, t) ← stackPop s
    .ok (t.setPc v.toNat))

/-- R142 -/
def execJmp (r : Reg) (s : State) : Host.Outcome State Fault Refusal :=
  conclude opJMP s (.ok (s.setPc (s.targetIn r)))

/-- A conditional jump: to the register's value when taken, else past the two bytes (R145). -/
def branch (taken : Bool) (r : Reg) (s : State) : State :=
  if taken then s.setPc (s.targetIn r) else s.advance 2

/-- R143 -/
def execJeq (r : Reg) (s : State) : Host.Outcome State Fault Refusal :=
  conclude opJEQ s (.ok (branch s.isEqual r s))

/-- R144 -/
def execJne (r : Reg) (s : State) : Host.Outcome State Fault Refusal :=
  conclude opJNE s (.ok (branch (!s.isEqual) r s))

end Sys2Proof.Machine
end

