-- ==== Sys2Proof/Machine/Interrupt.lean ====
section
/-! DEFINITION. IRET (spec/45_interrupt_return.md).  The end of the inner loop that follows it is the
engine's (spec/60_exceptions.md R183, Machine/Engine.lean). -/

namespace Sys2Proof.Machine

/-- R160, the same in RUNNING and SERVICING. -/
def execIret (s : State) : Host.Outcome State Fault Refusal :=
  conclude opIRET s (returnFromInterrupt s)

end Sys2Proof.Machine
end

