-- ==== Sys2Proof/Machine/LoadStore.lean ====
section
/-! DEFINITION. LDI, LD, ST (spec/41_load_store.md). -/

namespace Sys2Proof.Machine

/-- R100 -/
def execLdi (r : Reg) (imm : Byte) (s : State) : Host.Outcome State Fault Refusal :=
  conclude opLDI s (.ok ((s.setReg r imm).advance 3))

/-- R101: the cell is read before the destination is written. -/
def execLd (a b : Reg) (s : State) : Host.Outcome State Fault Refusal :=
  conclude opLD s (do
    let v ← loadVia s b
    .ok ((s.setReg a v).advance 3))

/-- R102: the address is in `a`, the value in `b`. -/
def execSt (a b : Reg) (s : State) : Host.Outcome State Fault Refusal :=
  conclude opST s (do
    let t ← storeVia s a (s.reg b)
    .ok (t.advance 3))

end Sys2Proof.Machine
end

