-- ==== Sys2Proof/Machine/Stack.lean ====
section
/-! DEFINITION. PUSH, POP (spec/43_stack.md). -/

namespace Sys2Proof.Machine

/-- R130: SP is written first, and the register is read after that, so PUSH R7 stores the
decremented SP. -/
def pushReg (r : Reg) (s : State) : Except Failure State := do
  let a : Int := (s.reg regSP).toNat - 1
  stackCheck s a a
  let t := s.setReg regSP (wrap8 a)
  memWrite t a (t.reg r)

/-- R131: the destination is written first, and SP is incremented from its then current value. -/
def popReg (r : Reg) (s : State) : Except Failure State := do
  let a : Int := (s.reg regSP).toNat
  stackCheck s a a
  let v ← memRead s a
  let t := s.setReg r v
  .ok (t.setReg regSP (wrap8 ((t.reg regSP).toNat + 1)))

/-- R130 -/
def execPush (r : Reg) (s : State) : Host.Outcome State Fault Refusal :=
  conclude opPUSH s (do
    let t ← pushReg r s
    .ok (t.advance 2))

/-- R131 -/
def execPop (r : Reg) (s : State) : Host.Outcome State Fault Refusal :=
  conclude opPOP s (do
    let t ← popReg r s
    .ok (t.advance 2))

end Sys2Proof.Machine
end

