-- ==== Sys2Proof/Machine/System.lean ====
section
/-! DEFINITION. HLT, PRN, PRA (spec/40_system_io.md).  A meaning runs after the fetch and the operand
checks (spec/30_encoding.md R77), on the state before the step, `pc` being the opcode's address. -/

namespace Sys2Proof.Machine

/-- R90: the mode becomes HALTED in either loop, and `pc` stays at the HLT (decisions D13, D14). -/
def execHlt (s : State) : Host.Outcome State Fault Refusal :=
  conclude opHLT s (.ok { s with mode := .halted })

/-- R91 -/
def execPrn (r : Reg) (s : State) : Host.Outcome State Fault Refusal :=
  conclude opPRN s (.ok ((s.emit .dec (s.reg r)).advance 2))

/-- R92 -/
def execPra (r : Reg) (s : State) : Host.Outcome State Fault Refusal :=
  conclude opPRA s (.ok ((s.emit .chr (s.reg r)).advance 2))

end Sys2Proof.Machine
end

