-- ==== Sys2Proof/Machine/Engine.lean ====
section
/-! DEFINITION. The engine: fetch (spec/30_encoding.md R77), the timer sample (spec/60_exceptions.md
R190), the end of the inner loop (R183) and the step for a given draw (R180). -/

namespace Sys2Proof.Machine

/-! ## Fetch -/

/-- The cell at `a`, or none where `MemRead(a, 1)` fails (R52). -/
def fetchByte (s : State) (a : Nat) : Option Byte := (memRead s a).toOption

/-- At most `n` bytes from address `a` on, as far as memory reaches (R56, R77).  Reading has no side
effect (R52), so reading more bytes than the instruction has changes nothing (log 21). -/
def fetchBytes (s : State) : Nat → Nat → List Byte
  | 0, _ => []
  | n + 1, a =>
    match fetchByte s a with
    | none => []
    | some b => b :: fetchBytes s n (a + 1)

/-- The bytes at `pc`: no instruction is longer than three (R70). -/
def fetchWindow (s : State) : List Byte := fetchBytes s 3 s.pc

/-- Fetch, decode and operand fetch at `pc`, in the order of R77 and R173. -/
def fetch (s : State) : Except DecodeError (Instr × List Byte) := decode (fetchWindow s)

/-- The failure a fetch at address `p` raises (R171, R173). -/
def fetchFailure (p : Nat) : DecodeError → Failure
  | .noOpcode => ⟨.addressOutOfRange, .memory p⟩
  | .illegalOpcode op => ⟨.illegalInstruction, .opcode op⟩
  | .missingOperand _ k => ⟨.addressOutOfRange, .memory (p + k)⟩
  | .badRegister _ f => ⟨.addressOutOfRange, .register f⟩

/-- The opcode byte a failing fetch reports: none when the opcode fetch itself failed (R174). -/
def fetchedOpcode : DecodeError → Option Byte
  | .noOpcode => none
  | .illegalOpcode op => some op
  | .missingOperand op _ => some op
  | .badRegister op _ => some op

/-- `ExecuteOne()` (R77): one instruction, the same in RUNNING and SERVICING (R181). -/
def executeOne (s : State) : Host.Outcome State Fault Refusal :=
  match fetch s with
  | .error e => .next (s.enterFaulted (fetchFailure s.pc e) (fetchedOpcode e))
  | .ok (i, _) => exec i s

/-! ## After the instruction -/

/-- A change of the next state, if there is one. -/
def onNext (f : State → State) :
    Host.Outcome State Fault Refusal → Host.Outcome State Fault Refusal
  | .next s => .next (f s)
  | .fault r => .fault r
  | .refused r => .refused r

/-- `TimerSample(tick)` (R190): the tick overwrites R6 with 1; one draw is used up. -/
def timerSample (enabled tick : Bool) (s : State) : State :=
  { s with regs := if enabled && tick then s.regs.set regIS 1 else s.regs, draws := s.draws + 1 }

/-- The end of a RUNNING instruction step: the timer is sampled if the core still runs (R180). -/
def endOuter (enabled tick : Bool) (s : State) : State :=
  if s.mode = .running then timerSample enabled tick s else s

/-- The end of a SERVICING instruction step: the inner loop ends when IS is not 1 (R183). -/
def endInner (s : State) : State :=
  if s.mode = .servicing ∧ s.reg regIS ≠ 1 then { s with mode := .running } else s

/-! ## The step -/

/-- `Step(tick)` (R180), with `TIMER_ENABLED` as an argument too. -/
def stepWith (enabled tick : Bool) (s : State) : Host.Outcome State Fault Refusal :=
  match s.mode with
  | .halted => .fault .haltedHasNoStep
  | .faulted => .fault .faultedHasNoStep
  | .running =>
    if s.reg regIS = 1 then interruptEntry s
    else onNext (endOuter enabled tick) (executeOne s)
  | .servicing => onNext endInner (executeOne s)

/-! ## Storing an instruction where the step fetches it -/

/-- Bytes written from cell `a` on; a byte past the last cell has no cell and is left out (R50). -/
def Memory.writeBytes : Memory → Nat → List Byte → Memory
  | m, _, [] => m
  | m, a, b :: rest =>
    if a < memSize then Memory.writeBytes (m.write a b) (a + 1) rest else m

end Sys2Proof.Machine
end

