-- ==== Sys2Proof/Machine/Boot.lean ====
section
/-! DEFINITION. Reset with a program image (spec/70_reset_and_hazards.md R210, R212): the image is
copied into zeroed memory from address 0, and an image that does not fit is refused. -/

namespace Sys2Proof.Machine

/-- An image the core accepts: at most 256 elements, each 0..255 (R212, decision D23). -/
def imageAccepted (image : List Nat) : Bool :=
  decide (image.length ≤ memSize) && image.all (fun b => decide (b < 256))

/-- The state after reset for an image, or the refusal of R212. -/
def State.resetWithImage (image : List Nat) : Except Refusal State :=
  if imageAccepted image then
    .ok { State.reset with
      mem := Memory.writeBytes State.reset.mem 0 (image.map (BitVec.ofNat 8)) }
  else .error .imageNotAccepted

end Sys2Proof.Machine
end

