-- ==== Sys2Proof/Machine/Step.lean ====
section
/-! DEFINITION. The step of the core (spec/60_exceptions.md R180), the draw of each sample being the
free value `Config.tick`; and the state with one instruction stored where the step fetches. -/

namespace Sys2Proof.Machine

/-- One step: `Step(tick)` of R180 with the draw of this sample (R43, decision D16; log 3). -/
def step (s : State) : Host.Outcome State Fault Refusal :=
  stepWith Config.timerEnabled (Config.tick s.draws) s

/-- `s` with the instruction of a table word stored at `pc`; nothing else changes (log 14). -/
def State.withFetchWord (s : State) (nbits w : Nat) : State :=
  { s with mem := Memory.writeBytes s.mem s.pc (tableWordBytes nbits w) }

end Sys2Proof.Machine
end

