-- ==== Sys2Proof/Safety.lean ====
section
/-! DEFINITION. The terms in which claims are made: the invariant of the core, what an instruction may
write, and what a step leaves unchanged. -/

namespace Sys2Proof.Machine

/-! ## The invariant -/

/-- The fault record stands exactly in FAULTED, names a failure the core raises, with its code (R171,
R175), and the `pc` that FAULTED keeps (R174, R177). -/
def faultCoherent (s : State) : Bool :=
  match s.fault with
  | none => decide (s.mode ≠ .faulted)
  | some r =>
    decide (s.mode = .faulted) && decide (r.code = r.kind.code) &&
      decide (r.kind ≠ .unsupportedOperation) && decide (r.pc = s.pc)

/-- What every reachable state satisfies. -/
structure Inv (s : State) : Prop where
  /-- `pc` is 0..256 (R22, R80) -/
  pcInRange : s.pc ≤ 256
  /-- `FL` is 0 or one-hot (R27) -/
  flagsAreLegal : flagsLegal s.fl = true
  /-- memory is in canonical form, with no cell above 255 (R50) -/
  memoryCanonical : s.mem.wf = true
  /-- between steps the inner loop runs only while IS is 1 (R28, R183) -/
  servicingActive : s.mode = .servicing → s.reg regIS = 1
  /-- the fault record goes with FAULTED (R31, R177) -/
  faultAgrees : faultCoherent s = true

/-! ## What an instruction may write -/

/-- The registers an instruction may write: its destination, and R7 for the stack instructions (R28,
R29); IRET restores R0..R6 and moves R7 (R160). -/
def writtenRegs : Instr → List Reg
  | .hlt => []
  | .prn _ => []
  | .pra _ => []
  | .ldi r _ => [r]
  | .ld a _ => [a]
  | .st _ _ => []
  | .add a _ => [a]
  | .mult a _ => [a]
  | .cmp _ _ => []
  | .inc r => [r]
  | .dec r => [r]
  | .push _ => [regSP]
  | .pop r => [r, regSP]
  | .call _ => [regSP]
  | .ret => [regSP]
  | .jmp _ => []
  | .jeq _ => []
  | .jne _ => []
  | .iret => [0, 1, 2, 3, 4, 5, regIS, regSP]

/-- The cells an instruction stores to, from the state before it (the write column of
spec/20_memory.md R54). -/
def storedCells (s : State) : Instr → List Nat
  | .hlt => []
  | .prn _ => []
  | .pra _ => []
  | .ldi _ _ => []
  | .ld _ _ => []
  | .st a _ => [s.addressIn a]
  | .add _ _ => []
  | .mult _ _ => []
  | .cmp _ _ => []
  | .inc _ => []
  | .dec _ => []
  | .push _ => [(s.reg regSP).toNat - 1]
  | .pop _ => []
  | .call _ => [(s.reg regSP).toNat - 1]
  | .ret => []
  | .jmp _ => []
  | .jeq _ => []
  | .jne _ => []
  | .iret => []

/-- The eight cells below SP, which an interrupt entry stores to (R54, R184). -/
def entryCells (s : State) : List Nat := (List.range 8).map (fun k => (s.reg regSP).toNat - 1 - k)

/-- The events an instruction emits (R41). -/
def emitted (s : State) : Instr → List OutEvent
  | .prn r => [⟨.dec, s.reg r⟩]
  | .pra r => [⟨.chr, s.reg r⟩]
  | .hlt => []
  | .ldi _ _ => []
  | .ld _ _ => []
  | .st _ _ => []
  | .add _ _ => []
  | .mult _ _ => []
  | .cmp _ _ => []
  | .inc _ => []
  | .dec _ => []
  | .push _ => []
  | .pop _ => []
  | .call _ => []
  | .ret => []
  | .jmp _ => []
  | .jeq _ => []
  | .jne _ => []
  | .iret => []

/-! ## What is left unchanged -/

/-- Every register but those of a list is unchanged. -/
def SameRegsBut (rs : List Reg) (s t : State) : Prop := ∀ r, r ∉ rs → t.reg r = s.reg r

/-- Every cell but those of a list reads as before. -/
def SameCellsBut (cells : List Nat) (s t : State) : Prop :=
  ∀ a, a ∉ cells → t.mem.read a = s.mem.read a

/-- The engine state, the fault record and the model's draw counter are unchanged. -/
structure SameEngine (s t : State) : Prop where
  mode : t.mode = s.mode
  fault : t.fault = s.fault
  draws : t.draws = s.draws

/-- An instruction's whole frame but for `pc`, `FL` and the trace: registers outside `rs`, cells
outside `cells` and the engine are unchanged. -/
structure Frame (rs : List Reg) (cells : List Nat) (s t : State) : Prop where
  regs : SameRegsBut rs s t
  cells : SameCellsBut cells s t
  engine : SameEngine s t

/-! ## Words used in claims -/

/-- An instruction and its bytes: the encoder gives them, and the decoder reads the instruction from
them whatever follows. -/
def EncodedAs (i : Instr) (bytes : List Byte) : Prop :=
  encode i = bytes ∧ ∀ rest, decode (bytes ++ rest) = .ok (i, rest)

/-- The 19 opcode bytes, written out from the table of R74. -/
def listedOpcodes : List Byte :=
  [ 0x01, 0x47, 0x48, 0x82, 0x83, 0x84, 0xA0, 0xA2, 0xA7, 0x65,
    0x66, 0x45, 0x46, 0x50, 0x11, 0x54, 0x55, 0x56, 0x13 ]

/-- The step executes an instruction: SERVICING, or RUNNING with no interrupt pending (R180, R182). -/
def ExecutesInstruction (s : State) : Prop :=
  s.mode = .servicing ∨ (s.mode = .running ∧ s.reg regIS ≠ 1)

/-- The step is an interrupt entry (R182). -/
def EntersInterrupt (s : State) : Prop := s.mode = .running ∧ s.reg regIS = 1

/-- `t` is `s` in FAULTED, with the record of R174 and nothing else changed (R177). -/
def FaultedFrom (s t : State) (kind : FailureKind) (code : Nat) (opcode : Option Byte)
    (detail : Detail) : Prop :=
  t = { s with mode := .faulted, fault := some ⟨kind, code, s.pc, opcode, detail⟩ }

/-- The bytes of an instruction stand in memory at `pc`, all inside memory. -/
def StandsAtPc (s : State) (i : Instr) : Prop :=
  s.pc + i.format.length ≤ 256 ∧
    ∀ k (h : k < (encode i).length), s.mem.read (s.pc + k) = (encode i)[k]

end Sys2Proof.Machine
end

