-- ==== Sys2Proof/Certificates/Slice0/Obligations.lean ====
section
/-! DEFINITION. The statements for the provers.  A docstring names the rule of spec/ a statement
formalises, and, where a clause rests on a decision or an inference the spec marks as its own, that
mark and the assumption log's entry.  Where a statement names an opcode byte (in `EncodedAs`, in `ir`, in
a fault record), the byte is the one its instruction's rule gives, whose source is decision D5
(log 1).  Wherever a statement says `FaultedFrom`, the code and the record are decision D11 (log 15) and
that all else, `ir` included, is kept is decision D12 (logs 4, 15). -/

open Sys2Proof Sys2Proof.Machine

/-! ## Encoding -/

/-- Some words of R71, R72, R74, written out in bits, and the instructions they stand for.  The opcode
values are the spec's default of `OPCODE_OF` (decision D5, log 1). -/
def Obligations.SpecWordsDecode : Prop :=
  decode [0b00000001] = .ok (.hlt, []) ∧
  decode [0b01000111, 0b00000000] = .ok (.prn 0, []) ∧
  decode [0b10000010, 0b00000111, 0b00001010] = .ok (.ldi 7 10, []) ∧
  decode [0b10000100, 0b00000000, 0b00000001] = .ok (.st 0 1, []) ∧
  decode [0b10100010, 0b00000000, 0b00000001] = .ok (.mult 0 1, []) ∧
  decode [0b01000101, 0b00000010] = .ok (.push 2, []) ∧
  decode [0b01010000, 0b00000001] = .ok (.call 1, []) ∧
  decode [0b01010101, 0b00000011] = .ok (.jeq 3, []) ∧
  decode [0b00010011] = .ok (.iret, [])

/-- Decode and encode agree: the decoder reads every instruction, with every operand, from its encoding,
and leaves the bytes after it. -/
def Obligations.DecodeReadsEveryEncoding : Prop :=
  ∀ (i : Instr) (rest : List Byte), decode (encode i ++ rest) = .ok (i, rest)

/-- The other direction: bytes the decoder reads an instruction from are that instruction's encoding
and the bytes left, so no two encodings stand for one instruction (R73). -/
def Obligations.DecodedBytesAreTheEncoding : Prop :=
  ∀ (bytes : List Byte) (i : Instr) (rest : List Byte),
    decode bytes = .ok (i, rest) → bytes = encode i ++ rest

/-- R76: every opcode byte outside the 19 of R74, and no other, has no handler; they are 237.  The 19
values are decision D5 (log 1). -/
def Obligations.UnlistedOpcodesAreIllegal : Prop :=
  (∀ (op : Byte) (rest : List Byte),
    decode (op :: rest) = .error (.illegalOpcode op) ↔ op ∉ listedOpcodes) ∧
  ((List.range 256).filter (fun n => BitVec.ofNat 8 n ∉ listedOpcodes)).length = 237

/-- R78 with the order of R173: a register operand byte above 7 is rejected with that byte, the first
operand before the second, whatever the instruction would do with it (decision D8, log 8). -/
def Obligations.RegisterBytesAboveSevenAreRejected : Prop :=
  ∀ (i : Instr) (f b : Byte) (rest : List Byte), 7 < f.toNat →
    (i.format = .r → decode (opcodeOf i :: f :: rest) = .error (.badRegister (opcodeOf i) f)) ∧
    (i.format = .ri → decode (opcodeOf i :: f :: b :: rest) = .error (.badRegister (opcodeOf i) f)) ∧
    (i.format = .rr → decode (opcodeOf i :: f :: b :: rest) = .error (.badRegister (opcodeOf i) f)) ∧
    (i.format = .rr → b.toNat ≤ 7 →
      decode (opcodeOf i :: b :: f :: rest) = .error (.badRegister (opcodeOf i) f))

/-- R72, R81: the decoder takes exactly the bytes of the instruction's format, and the format is fixed by
the opcode byte alone. -/
def Obligations.LengthIsFixedByTheOpcode : Prop :=
  (∀ (bytes : List Byte) (i : Instr) (rest : List Byte), decode bytes = .ok (i, rest) →
    bytes.length = i.format.length + rest.length) ∧
  (∀ (op : Byte) (tail tail' rest rest' : List Byte) (i i' : Instr),
    decode (op :: tail) = .ok (i, rest) → decode (op :: tail') = .ok (i', rest') →
    i.format = i'.format)

/-! ## The step -/

/-- A step runs the decoded instruction (R77, R180): in RUNNING with no interrupt pending, `exec` and then
the timer sample; in SERVICING, `exec` and then the test that ends the inner loop. -/
def Obligations.StepRunsDecodedInstruction : Prop :=
  ∀ (s : State) (i : Instr) (rest : List Byte), fetch s = .ok (i, rest) →
    (s.mode = .running → s.reg regIS ≠ 1 →
      step s = onNext (endOuter Config.timerEnabled (Config.tick s.draws)) (exec i s)) ∧
    (s.mode = .servicing → step s = onNext endInner (exec i s))

/-- R71, R77: where an instruction's bytes stand in memory at `pc`, the fetch gives that instruction. -/
def Obligations.FetchReadsTheBytesAtPc : Prop :=
  ∀ (s : State) (i : Instr), StandsAtPc s i → ∃ rest, fetch s = .ok (i, rest)

/-- R173, R174, for every step that fetches: the opcode fetch, the opcode, the operand fetches, the
register checks, in this order, each with its record; R173 is the spec's inference, the record is
decision D11 (log 15), the state kept is D12 (log 4), and the detail for `pc` above 256 is log 18. -/
def Obligations.FetchFailuresInOrder : Prop :=
  ∀ (s : State) (enabled tick : Bool), ExecutesInstruction s →
    (255 < s.pc → ∃ t, stepWith enabled tick s = .next t ∧
      FaultedFrom s t .addressOutOfRange 2 none (.memory s.pc)) ∧
    (s.pc ≤ 255 → s.mem.read s.pc ∉ listedOpcodes → ∃ t, stepWith enabled tick s = .next t ∧
      FaultedFrom s t .illegalInstruction 1 (some (s.mem.read s.pc)) (.opcode (s.mem.read s.pc))) ∧
    (∀ i : Instr, s.pc ≤ 255 → s.mem.read s.pc = opcodeOf i →
      (255 < s.pc + i.format.operandCount → ∃ t, stepWith enabled tick s = .next t ∧
        FaultedFrom s t .addressOutOfRange 2 (some (opcodeOf i)) (.memory 256)) ∧
      (s.pc + i.format.operandCount ≤ 255 → i.format ≠ .n → 7 < (s.mem.read (s.pc + 1)).toNat →
        ∃ t, stepWith enabled tick s = .next t ∧
          FaultedFrom s t .addressOutOfRange 2 (some (opcodeOf i))
            (.register (s.mem.read (s.pc + 1)))) ∧
      (s.pc + i.format.operandCount ≤ 255 → i.format = .rr → (s.mem.read (s.pc + 1)).toNat ≤ 7 →
        7 < (s.mem.read (s.pc + 2)).toNat → ∃ t, stepWith enabled tick s = .next t ∧
          FaultedFrom s t .addressOutOfRange 2 (some (opcodeOf i))
            (.register (s.mem.read (s.pc + 2)))))

/-- R178, R177: HALTED and FAULTED have no step.  That `step` then answers a stop, and the stop's two names,
are the model's choice (log 4): the spec says only that there is no step. -/
def Obligations.HaltedAndFaultedHaveNoStep : Prop :=
  ∀ (s : State) (enabled tick : Bool),
    (s.mode = .halted → stepWith enabled tick s = .fault .haltedHasNoStep ∧
      step s = .fault .haltedHasNoStep) ∧
    (s.mode = .faulted → stepWith enabled tick s = .fault .faultedHasNoStep ∧
      step s = .fault .faultedHasNoStep)

/-- R182: in RUNNING the whole byte R6 is tested before the fetch; 1 makes the step an interrupt entry,
any other value an instruction; in SERVICING the test is not made. -/
def Obligations.InterruptIsCheckedBeforeTheFetch : Prop :=
  ∀ (s : State) (enabled tick : Bool),
    (s.mode = .running → s.reg regIS = 1 → stepWith enabled tick s = interruptEntry s) ∧
    (s.mode = .running → s.reg regIS ≠ 1 →
      stepWith enabled tick s = onNext (endOuter enabled tick) (executeOne s)) ∧
    (s.mode = .servicing → stepWith enabled tick s = onNext endInner (executeOne s))

/-- R190 for a RUNNING instruction step that ends in `u`: if `u` still runs, an enabled tick overwrites R6
with 1 whatever it held, and nothing else changes; after HLT or a failure nothing is sampled.  The
timer as a draw is decision D16 (log 3); the draw counter is the model's own. -/
def Obligations.TickSetsTheInterruptStatus : Prop :=
  ∀ (s u : State) (enabled tick : Bool), s.mode = .running → s.reg regIS ≠ 1 →
    executeOne s = .next u →
    (u.mode = .running → ∃ t, stepWith enabled tick s = .next t ∧
      t.reg regIS = (if enabled = true ∧ tick = true then 1 else u.reg regIS) ∧
      (∀ r, r ≠ regIS → t.reg r = u.reg r) ∧
      t = { u with regs := t.regs, draws := u.draws + 1 }) ∧
    (u.mode ≠ .running → stepWith enabled tick s = .next u)

/-- R217, R192 (the spec's inference): an interrupt made pending by a RUNNING instruction step is entered at
the next step, before any fetch (the tick as a draw is decision D16, log 3). -/
def Obligations.PendingInterruptIsTakenNext : Prop :=
  ∀ (s t : State) (tick enabled' tick' : Bool), s.mode = .running → s.reg regIS ≠ 1 →
    stepWith true tick s = .next t → t.mode = .running → (tick = true ∨ t.reg regIS = 1) →
    stepWith enabled' tick' t = interruptEntry t

/-- R183 for a SERVICING instruction step that ends in `u`: the inner loop goes on exactly while R6 is 1;
no timer is sampled (decision D17, log 13). -/
def Obligations.InnerLoopEndsWhenStatusIsNotOne : Prop :=
  ∀ (s u : State) (enabled tick : Bool), s.mode = .servicing → executeOne s = .next u →
    (u.mode = .servicing → u.reg regIS = 1 → stepWith enabled tick s = .next u) ∧
    (u.mode = .servicing → u.reg regIS ≠ 1 →
      stepWith enabled tick s = .next { u with mode := .running }) ∧
    (u.mode ≠ .servicing → stepWith enabled tick s = .next u)

/-- R184's table and R185: the interrupt entry pushes `pc`, then R0 to R6, enters at the byte in cell
0xF8, and changes nothing else; the push order is decision D15 (log 10), `FL` unsaved D18 (log 9). -/
def Obligations.InterruptEntrySavesPcAndRegisters : Prop :=
  ∀ s : State, 8 ≤ (s.reg regSP).toNat → (s.reg regSP).toNat ≤ 244 → s.pc ≤ 255 →
    ∃ t, interruptEntry s = .next t ∧
      (t.reg regSP).toNat = (s.reg regSP).toNat - 8 ∧
      SameRegsBut [regSP] s t ∧
      (t.mem.read ((s.reg regSP).toNat - 1)).toNat = s.pc ∧
      (∀ r : Reg, r ≠ regSP → t.mem.read ((s.reg regSP).toNat - 2 - r.val) = s.reg r) ∧
      SameCellsBut (entryCells s) s t ∧
      t.pc = (s.mem.read 0xF8).toNat ∧ t.mode = .servicing ∧
      t.fl = s.fl ∧ t.ir = s.ir ∧ t.out = s.out ∧ t.fault = s.fault ∧ t.draws = s.draws

/-- R184, R172, R173 (the last two are the spec's inference): when an interrupt entry fails, in which order,
and that nothing is written (decisions D10, D19; logs 7, 17).  The codes and the record are decision D11
(log 15), the state kept, `ir` included, is D12 (log 4), and the value for `pc` above 256 is log 18. -/
def Obligations.InterruptEntryFailures : Prop :=
  ∀ s : State,
    ((s.reg regSP).toNat < 8 → ∃ t, interruptEntry s = .next t ∧
      FaultedFrom s t .stackOverflow 3 none (.sp (s.reg regSP))) ∧
    (244 < (s.reg regSP).toNat → ∃ t, interruptEntry s = .next t ∧
      FaultedFrom s t .stackUnderflow 4 none (.sp (s.reg regSP))) ∧
    (8 ≤ (s.reg regSP).toNat → (s.reg regSP).toNat ≤ 244 → 255 < s.pc →
      ∃ t, interruptEntry s = .next t ∧
        FaultedFrom s t .addressOutOfRange 2 none (.value s.pc))

/-! ## The instructions

The numbered rule of each instruction is followed as it is written.  Two points that the rules use have
their source in the spec's decisions: results wrap modulo 256 (D1, log 12) and register bytes above 7 are
refused at decode (D8, log 8). -/

/-- R90: HLT enters HALTED in either loop and keeps `pc` (decisions D13, D14; log 11). -/
def Obligations.HltHalts : Prop :=
  EncodedAs .hlt [0x01] ∧
  ∀ s : State, ∃ t, exec .hlt s = .next t ∧ t.mode = .halted ∧ t.pc = s.pc ∧ t.ir = 0x01 ∧
    SameRegsBut [] s t ∧ SameCellsBut [] s t ∧ t.fl = s.fl ∧ t.out = s.out ∧
    t.fault = s.fault ∧ t.draws = s.draws

/-- R91 -/
def Obligations.PrnEmitsTheRegisterAsNumber : Prop :=
  ∀ r : Reg, EncodedAs (.prn r) [0x47, regByte r] ∧
    ∀ s : State, ∃ t, exec (.prn r) s = .next t ∧ t.out = s.out ++ [⟨.dec, s.reg r⟩] ∧
      t.pc = s.pc + 2 ∧ t.ir = 0x47 ∧ t.fl = s.fl ∧ Frame [] [] s t

/-- R92 -/
def Obligations.PraEmitsTheRegisterAsCharacter : Prop :=
  ∀ r : Reg, EncodedAs (.pra r) [0x48, regByte r] ∧
    ∀ s : State, ∃ t, exec (.pra r) s = .next t ∧ t.out = s.out ++ [⟨.chr, s.reg r⟩] ∧
      t.pc = s.pc + 2 ∧ t.ir = 0x48 ∧ t.fl = s.fl ∧ Frame [] [] s t

/-- R100, with what it says of R6: in RUNNING, 1 is an interrupt taken before the next fetch; in
SERVICING, another value ends the inner loop. -/
def Obligations.LdiWritesTheImmediate : Prop :=
  ∀ (r : Reg) (imm : Byte), EncodedAs (.ldi r imm) [0x82, regByte r, imm] ∧
    ∀ s : State, ∃ t, exec (.ldi r imm) s = .next t ∧ t.reg r = imm ∧
      t.pc = s.pc + 3 ∧ t.ir = 0x82 ∧ t.fl = s.fl ∧ t.out = s.out ∧ Frame [r] [] s t ∧
      (s.mode = .running → r = regIS → imm = 1 →
        ∀ enabled tick, stepWith enabled tick t = interruptEntry t) ∧
      (s.mode = .servicing → r = regIS → imm ≠ 1 → (endInner t).mode = .running)

/-- R101: the cell is read before the destination is written, so it holds for `a = b` too.  That no
address fails is the spec's inference. -/
def Obligations.LdReadsTheAddressedCell : Prop :=
  ∀ a b : Reg, EncodedAs (.ld a b) [0x83, regByte a, regByte b] ∧
    ∀ s : State, ∃ t, exec (.ld a b) s = .next t ∧ t.reg a = s.mem.read (s.reg b).toNat ∧
      t.pc = s.pc + 3 ∧ t.ir = 0x83 ∧ t.fl = s.fl ∧ t.out = s.out ∧ Frame [a] [] s t

/-- R102: the address is in the first operand and the value in the second; every other cell reads as
before.  That no address fails is the spec's inference. -/
def Obligations.StWritesTheAddressedCell : Prop :=
  ∀ a b : Reg, EncodedAs (.st a b) [0x84, regByte a, regByte b] ∧
    ∀ s : State, ∃ t, exec (.st a b) s = .next t ∧ t.mem.read (s.addressIn a) = s.reg b ∧
      t.pc = s.pc + 3 ∧ t.ir = 0x84 ∧ t.fl = s.fl ∧ t.out = s.out ∧
      Frame [] [s.addressIn a] s t

/-- R112 -/
def Obligations.AddWritesTheSumModulo256 : Prop :=
  ∀ a b : Reg, EncodedAs (.add a b) [0xA0, regByte a, regByte b] ∧
    ∀ s : State, ∃ t, exec (.add a b) s = .next t ∧
      (t.reg a).toNat = ((s.reg a).toNat + (s.reg b).toNat) % 256 ∧
      t.pc = s.pc + 3 ∧ t.ir = 0xA0 ∧ t.fl = s.fl ∧ t.out = s.out ∧ Frame [a] [] s t

/-- R113 -/
def Obligations.MultWritesTheProductModulo256 : Prop :=
  ∀ a b : Reg, EncodedAs (.mult a b) [0xA2, regByte a, regByte b] ∧
    ∀ s : State, ∃ t, exec (.mult a b) s = .next t ∧
      (t.reg a).toNat = ((s.reg a).toNat * (s.reg b).toNat) % 256 ∧
      t.pc = s.pc + 3 ∧ t.ir = 0xA2 ∧ t.fl = s.fl ∧ t.out = s.out ∧ Frame [a] [] s t

/-- R114: unsigned, and the whole of `FL` is written. -/
def Obligations.CmpWritesOneFlag : Prop :=
  ∀ a b : Reg, EncodedAs (.cmp a b) [0xA7, regByte a, regByte b] ∧
    ∀ s : State, ∃ t, exec (.cmp a b) s = .next t ∧
      ((s.reg a).toNat < (s.reg b).toNat → t.fl = 0b100) ∧
      ((s.reg a).toNat > (s.reg b).toNat → t.fl = 0b010) ∧
      ((s.reg a).toNat = (s.reg b).toNat → t.fl = 0b001) ∧
      t.pc = s.pc + 3 ∧ t.ir = 0xA7 ∧ t.out = s.out ∧ Frame [] [] s t

/-- R115 -/
def Obligations.IncAddsOneModulo256 : Prop :=
  ∀ r : Reg, EncodedAs (.inc r) [0x65, regByte r] ∧
    ∀ s : State, ∃ t, exec (.inc r) s = .next t ∧
      (t.reg r).toNat = ((s.reg r).toNat + 1) % 256 ∧
      t.pc = s.pc + 2 ∧ t.ir = 0x65 ∧ t.fl = s.fl ∧ t.out = s.out ∧ Frame [r] [] s t

/-- R116: 255 from 0. -/
def Obligations.DecSubtractsOneModulo256 : Prop :=
  ∀ r : Reg, EncodedAs (.dec r) [0x66, regByte r] ∧
    ∀ s : State, ∃ t, exec (.dec r) s = .next t ∧
      ((t.reg r).toNat : Int) = (((s.reg r).toNat : Int) - 1) % 256 ∧
      t.pc = s.pc + 2 ∧ t.ir = 0x66 ∧ t.fl = s.fl ∧ t.out = s.out ∧ Frame [r] [] s t

/-- R130: SP is written first and the register read after that, so the cell holds what the register
holds AFTER the push; both failures keep the state.  The failures' codes and record are decision D11
(log 15) and the state they keep, `ir` included, is D12 (log 4), not R130's. -/
def Obligations.PushDecrementsThenStores : Prop :=
  ∀ r : Reg, EncodedAs (.push r) [0x45, regByte r] ∧
    ∀ s : State,
      (1 ≤ (s.reg regSP).toNat → (s.reg regSP).toNat ≤ 244 →
        ∃ t, exec (.push r) s = .next t ∧
          (t.reg regSP).toNat = (s.reg regSP).toNat - 1 ∧
          t.mem.read ((s.reg regSP).toNat - 1) = t.reg r ∧
          t.pc = s.pc + 2 ∧ t.ir = 0x45 ∧ t.fl = s.fl ∧ t.out = s.out ∧
          Frame [regSP] [(s.reg regSP).toNat - 1] s t) ∧
      ((s.reg regSP).toNat = 0 → ∃ t, exec (.push r) s = .next t ∧
        FaultedFrom s t .stackOverflow 3 (some 0x45) (.sp (s.reg regSP))) ∧
      (244 < (s.reg regSP).toNat → ∃ t, exec (.push r) s = .next t ∧
        FaultedFrom s t .stackUnderflow 4 (some 0x45) (.sp (s.reg regSP)))

/-- R131: the register is written first and SP incremented from its then current value, so POP R7 ends at
the popped byte plus 1, modulo 256; a pop erases nothing.  The failure's code and record are decision D11
(log 15) and the state it keeps, `ir` included, is D12 (log 4), not R131's. -/
def Obligations.PopLoadsThenIncrements : Prop :=
  ∀ r : Reg, EncodedAs (.pop r) [0x46, regByte r] ∧
    ∀ s : State,
      ((s.reg regSP).toNat < 244 →
        ∃ t, exec (.pop r) s = .next t ∧
          (r ≠ regSP → t.reg r = s.mem.read (s.reg regSP).toNat ∧
            (t.reg regSP).toNat = (s.reg regSP).toNat + 1) ∧
          (r = regSP →
            (t.reg regSP).toNat = ((s.mem.read (s.reg regSP).toNat).toNat + 1) % 256) ∧
          t.pc = s.pc + 2 ∧ t.ir = 0x46 ∧ t.fl = s.fl ∧ t.out = s.out ∧
          Frame [r, regSP] [] s t) ∧
      (244 ≤ (s.reg regSP).toNat → ∃ t, exec (.pop r) s = .next t ∧
        FaultedFrom s t .stackUnderflow 4 (some 0x46) (.sp (s.reg regSP)))

/-- R140: the return address `p + 2` is pushed and the target read after the push; the failures in their
order (a return address of 256 is decision D19, log 7).  The failures' codes and record are decision D11
(log 15), the state they keep, `ir` included, is D12 (log 4), and the value `p + 2` for `pc` above 254, in
states no run reaches, is log 18. -/
def Obligations.CallPushesTheReturnAddress : Prop :=
  ∀ r : Reg, EncodedAs (.call r) [0x50, regByte r] ∧
    ∀ s : State,
      (1 ≤ (s.reg regSP).toNat → (s.reg regSP).toNat ≤ 244 → s.pc + 2 ≤ 255 →
        ∃ t, exec (.call r) s = .next t ∧
          (t.reg regSP).toNat = (s.reg regSP).toNat - 1 ∧
          (t.mem.read ((s.reg regSP).toNat - 1)).toNat = s.pc + 2 ∧
          t.pc = (t.reg r).toNat ∧ t.ir = 0x50 ∧ t.fl = s.fl ∧ t.out = s.out ∧
          Frame [regSP] [(s.reg regSP).toNat - 1] s t) ∧
      ((s.reg regSP).toNat = 0 → ∃ t, exec (.call r) s = .next t ∧
        FaultedFrom s t .stackOverflow 3 (some 0x50) (.sp (s.reg regSP))) ∧
      (244 < (s.reg regSP).toNat → ∃ t, exec (.call r) s = .next t ∧
        FaultedFrom s t .stackUnderflow 4 (some 0x50) (.sp (s.reg regSP))) ∧
      (1 ≤ (s.reg regSP).toNat → (s.reg regSP).toNat ≤ 244 → 255 < s.pc + 2 →
        ∃ t, exec (.call r) s = .next t ∧
          FaultedFrom s t .addressOutOfRange 2 (some 0x50) (.value (s.pc + 2)))

/-- R141; the failure's code and record are decision D11 (log 15) and the state it keeps, `ir` included, is
D12 (log 4), not R141's. -/
def Obligations.RetPopsTheProgramCounter : Prop :=
  EncodedAs .ret [0x11] ∧
  ∀ s : State,
    ((s.reg regSP).toNat < 244 →
      ∃ t, exec .ret s = .next t ∧ t.pc = (s.mem.read (s.reg regSP).toNat).toNat ∧
        (t.reg regSP).toNat = (s.reg regSP).toNat + 1 ∧
        t.ir = 0x11 ∧ t.fl = s.fl ∧ t.out = s.out ∧ Frame [regSP] [] s t) ∧
    (244 ≤ (s.reg regSP).toNat → ∃ t, exec .ret s = .next t ∧
      FaultedFrom s t .stackUnderflow 4 (some 0x11) (.sp (s.reg regSP)))

/-- R142, with the loop it names: a JMP to its own address leaves `pc` and all but the instruction
register, and in RUNNING the model's own draw counter, where they were, until an interrupt is taken.  The
timer as a draw and its counter are the model's choice (decision D16, log 3). -/
def Obligations.JmpGoesToTheRegister : Prop :=
  ∀ r : Reg, EncodedAs (.jmp r) [0x54, regByte r] ∧
    (∀ s : State, ∃ t, exec (.jmp r) s = .next t ∧ t.pc = (s.reg r).toNat ∧
      t.ir = 0x54 ∧ t.fl = s.fl ∧ t.out = s.out ∧ Frame [] [] s t) ∧
    (∀ (s : State) (rest : List Byte) (enabled tick : Bool),
      fetch s = .ok (.jmp r, rest) → (s.reg r).toNat = s.pc →
      (s.mode = .running → s.reg regIS ≠ 1 →
        stepWith enabled false s = .next { s with ir := 0x54, draws := s.draws + 1 }) ∧
      (s.mode = .servicing → s.reg regIS = 1 →
        stepWith enabled tick s = .next { s with ir := 0x54 }))

/-- R143: taken exactly when `FL` is EQUAL; the register byte is checked even when not taken. -/
def Obligations.JeqJumpsWhenEqual : Prop :=
  ∀ r : Reg, EncodedAs (.jeq r) [0x55, regByte r] ∧
    (∀ s : State, ∃ t, exec (.jeq r) s = .next t ∧
      (s.fl = 0b001 → t.pc = (s.reg r).toNat) ∧ (s.fl ≠ 0b001 → t.pc = s.pc + 2) ∧
      t.ir = 0x55 ∧ t.fl = s.fl ∧ t.out = s.out ∧ Frame [] [] s t) ∧
    (∀ (f : Byte) (rest : List Byte), 7 < f.toNat →
      decode (0x55 :: f :: rest) = .error (.badRegister 0x55 f))

/-- R144: taken exactly when `FL` is not EQUAL; the register byte is checked even when not taken. -/
def Obligations.JneJumpsWhenNotEqual : Prop :=
  ∀ r : Reg, EncodedAs (.jne r) [0x56, regByte r] ∧
    (∀ s : State, ∃ t, exec (.jne r) s = .next t ∧
      (s.fl ≠ 0b001 → t.pc = (s.reg r).toNat) ∧ (s.fl = 0b001 → t.pc = s.pc + 2) ∧
      t.ir = 0x56 ∧ t.fl = s.fl ∧ t.out = s.out ∧ Frame [] [] s t) ∧
    (∀ (f : Byte) (rest : List Byte), 7 < f.toNat →
      decode (0x56 :: f :: rest) = .error (.badRegister 0x56 f))

/-- R160: R0..R5 and `pc` come from the stack, R6 ends at 0 whatever was saved, R7 ends eight higher; a
failing IRET writes nothing (decision D10, log 17); `FL` is not restored (D18, log 9).  The failure's code
and record are decision D11 (log 15) and the state it keeps, `ir` included, is D12 (log 4). -/
def Obligations.IretRestoresAndClearsStatus : Prop :=
  EncodedAs .iret [0x13] ∧
  ∀ s : State,
    ((s.reg regSP).toNat + 7 < 244 →
      ∃ t, exec .iret s = .next t ∧
        (∀ r : Reg, r.val < 6 → t.reg r = s.mem.read ((s.reg regSP).toNat + 6 - r.val)) ∧
        t.reg regIS = 0 ∧ (t.reg regSP).toNat = (s.reg regSP).toNat + 8 ∧
        t.pc = (s.mem.read ((s.reg regSP).toNat + 7)).toNat ∧
        t.ir = 0x13 ∧ t.fl = s.fl ∧ t.out = s.out ∧ SameCellsBut [] s t ∧ SameEngine s t) ∧
    (244 ≤ (s.reg regSP).toNat + 7 → ∃ t, exec .iret s = .next t ∧
      FaultedFrom s t .stackUnderflow 4 (some 0x13) (.sp (s.reg regSP)))

/-! ## Rules of the whole machine -/

/-- Frame of every instruction, failing or not (R54, R110, R131, R160): the registers outside
`writtenRegs` and the cells outside `storedCells` are unchanged. -/
def Obligations.InstructionWritesOnlyItsOwn : Prop :=
  ∀ (i : Instr) (s t : State), exec i s = .next t →
    SameRegsBut (writtenRegs i) s t ∧ SameCellsBut (storedCells s i) s t ∧ t.draws = s.draws

/-- R28, R29, R190: a step changes a register only as the destination of its instruction, as SP in an
interrupt entry, or as R6 set to 1 by an enabled tick (the tick as a draw is decision D16, log 3). -/
def Obligations.RegistersChangeOnlyByTheirWriters : Prop :=
  ∀ (enabled tick : Bool) (s t : State) (r : Reg), stepWith enabled tick s = .next t →
    t.reg r ≠ s.reg r →
    (EntersInterrupt s ∧ r = regSP) ∨
    (s.mode = .running ∧ enabled = true ∧ tick = true ∧ r = regIS ∧ t.reg regIS = 1) ∨
    (ExecutesInstruction s ∧ ∃ i rest, fetch s = .ok (i, rest) ∧ r ∈ writtenRegs i)

/-- R51, R54: a step changes a cell only by the store of its ST, PUSH or CALL, or by an interrupt
entry. -/
def Obligations.MemoryChangesOnlyByStores : Prop :=
  ∀ (enabled tick : Bool) (s t : State) (a : Nat), stepWith enabled tick s = .next t →
    t.mem.read a ≠ s.mem.read a →
    (EntersInterrupt s ∧ a ∈ entryCells s) ∨
    (ExecutesInstruction s ∧ ∃ i rest, fetch s = .ok (i, rest) ∧ a ∈ storedCells s i)

/-- R26: a step changes `FL` only by CMP, which overwrites it whatever it held; no instruction but JEQ and
JNE, and no interrupt entry, reads it (that an interrupt does not save it is decision D18, log 9). -/
def Obligations.FlagsWrittenByCmpReadByJumps : Prop :=
  (∀ (enabled tick : Bool) (s t : State), stepWith enabled tick s = .next t → t.fl ≠ s.fl →
    ExecutesInstruction s ∧ ∃ a b rest, fetch s = .ok (.cmp a b, rest)) ∧
  (∀ (a b : Reg) (v : BitVec 3) (s : State), exec (.cmp a b) (s.setFl v) = exec (.cmp a b) s) ∧
  (∀ (i : Instr) (v : BitVec 3) (s : State), (∀ a b, i ≠ .cmp a b) → (∀ r, i ≠ .jeq r) →
    (∀ r, i ≠ .jne r) → exec i (s.setFl v) = onNext (fun t => t.setFl v) (exec i s)) ∧
  (∀ (v : BitVec 3) (s : State),
    interruptEntry (s.setFl v) = onNext (fun t => t.setFl v) (interruptEntry s))

/-- R33, R41: the trace gets exactly the event of an executed PRN or PRA, and every other step keeps
it. -/
def Obligations.TraceGrowsOnlyByPrnAndPra : Prop :=
  ∀ (enabled tick : Bool) (s t : State), stepWith enabled tick s = .next t →
    (EntersInterrupt s → t.out = s.out) ∧
    (ExecutesInstruction s → ∀ i rest, fetch s = .ok (i, rest) → t.out = s.out ++ emitted s i) ∧
    (ExecutesInstruction s → ∀ e, fetch s = .error e → t.out = s.out)

/-- R24: an instruction step that does not fail leaves its opcode byte in the instruction register, in
either loop. -/
def Obligations.IrHoldsTheFetchedOpcode : Prop :=
  ∀ (enabled tick : Bool) (s t : State), ExecutesInstruction s →
    stepWith enabled tick s = .next t → t.mode ≠ .faulted → t.ir = s.mem.read s.pc

/-- R10, R174, R177: a failing step changes nothing but the mode and the fault record, which names the
step's `pc`, its opcode byte (none for an interrupt entry or a failed opcode fetch), and a failure the
core raises with its code (decisions D11, D12; logs 4, 15). -/
def Obligations.FailingStepKeepsTheState : Prop :=
  ∀ (enabled tick : Bool) (s t : State), stepWith enabled tick s = .next t → t.mode = .faulted →
    ∃ kind opcode detail, FaultedFrom s t kind kind.code opcode detail ∧
      kind ≠ .unsupportedOperation ∧
      (EntersInterrupt s ∨ 255 < s.pc → opcode = none) ∧
      (ExecutesInstruction s → s.pc ≤ 255 → opcode = some (s.mem.read s.pc))

/-- R176, R90: HALTED is entered only by HLT, which changes nothing else but the instruction register (its
`pc` is decision D13, log 11). -/
def Obligations.HaltedOnlyByHlt : Prop :=
  ∀ (enabled tick : Bool) (s t : State), stepWith enabled tick s = .next t → t.mode = .halted →
    (∃ rest, fetch s = .ok (.hlt, rest)) ∧ t = { s with mode := .halted, ir := 0x01 }

/-- R188, R180 (the spec's inference): SERVICING is entered only by an interrupt entry from RUNNING, so
interrupts never nest; while SERVICING goes on, R6 is 1. -/
def Obligations.ServicingOnlyByInterruptEntry : Prop :=
  ∀ (enabled tick : Bool) (s t : State), stepWith enabled tick s = .next t →
    t.mode = .servicing →
    (EntersInterrupt s ∧ enterInterrupt s = .ok t) ∨ (s.mode = .servicing ∧ t.reg regIS = 1)

/-- R181: an instruction step is the same in RUNNING and SERVICING: the two end alike, but for which
loop they are in. -/
def Obligations.InstructionIsTheSameInBothLoops : Prop :=
  (∀ s : State, executeOne { s with mode := .servicing } =
    onNext (fun t => if t.mode = .running then { t with mode := .servicing } else t)
      (executeOne { s with mode := .running })) ∧
  (∀ (i : Instr) (s : State), exec i { s with mode := .servicing } =
    onNext (fun t => if t.mode = .running then { t with mode := .servicing } else t)
      (exec i { s with mode := .running }))

/-! ## Laws of instruction pairs -/

/-- R132 (the spec's inference): PUSH then POP of one register, R7 included, restores it and SP, and
leaves the pushed byte below; POP into another register copies, neither being R7. -/
def Obligations.PushThenPopRoundTrip : Prop :=
  ∀ s : State, 1 ≤ (s.reg regSP).toNat → (s.reg regSP).toNat ≤ 244 →
    (∀ r : Reg, ∃ t u, exec (.push r) s = .next t ∧ exec (.pop r) t = .next u ∧
      u.reg r = s.reg r ∧ u.reg regSP = s.reg regSP ∧
      u.mem.read ((s.reg regSP).toNat - 1) = t.reg r) ∧
    (∀ r r2 : Reg, r ≠ regSP → r2 ≠ regSP → ∃ t u, exec (.push r) s = .next t ∧
      exec (.pop r2) t = .next u ∧ u.reg r2 = s.reg r ∧ u.reg regSP = s.reg regSP)

/-- R146 (the spec's inference): from any state in which SP and the byte it points at are as the CALL left
them, RET resumes at `p + 2` with SP restored. -/
def Obligations.CallThenRetResumes : Prop :=
  ∀ (r : Reg) (s : State), 1 ≤ (s.reg regSP).toNat → (s.reg regSP).toNat ≤ 244 → s.pc ≤ 253 →
    ∃ t, exec (.call r) s = .next t ∧
      ∀ u : State, u.reg regSP = t.reg regSP →
        u.mem.read (t.reg regSP).toNat = t.mem.read (t.reg regSP).toNat →
        ∃ v, exec .ret u = .next v ∧ v.pc = s.pc + 2 ∧ v.reg regSP = s.reg regSP

/-- R146 (the spec's inference): a chain of CALLs from the empty stack, each at an address up to 253,
can be 244 deep and no deeper: as long as it is at most 244 long every CALL completes and SP is 244
less its length; the next one is a StackOverflow, whose code and record are decision D11 (log 15) and
whose kept state, `ir` included, is D12 (log 4). -/
def Obligations.NestedCallsReachDepth244 : Prop :=
  ∀ (chain : Nat → State) (r : Nat → Reg) (n : Nat),
    (chain 0).reg regSP = 244 → n ≤ 244 →
    (∀ k, k < n → (chain k).pc ≤ 253 ∧ exec (.call (r k)) (chain k) = .next (chain (k + 1))) →
    ((chain n).reg regSP).toNat = 244 - n ∧ (∀ k, k ≤ n → (chain k).mode = (chain 0).mode) ∧
    (n < 244 → (chain n).pc ≤ 253 → ∃ t, exec (.call (r n)) (chain n) = .next t ∧
      (t.reg regSP).toNat = 243 - n ∧ t.mode = (chain n).mode) ∧
    (n = 244 → ∃ t, exec (.call (r n)) (chain n) = .next t ∧
      FaultedFrom (chain n) t .stackOverflow 3 (some 0x50) (.sp 0))

/-- R161 (the spec's inference): an interrupt entry from a RUNNING state, and later an IRET in SERVICING
with SP and the eight saved cells as the entry left them: R0 to R5, R7 and `pc` are as before the
entry, R6 is 0, the core runs in the outer loop again, and `FL` is what the handler left. -/
def Obligations.InterruptEntryThenIretResumes : Prop :=
  ∀ (s t : State) (enabled tick : Bool), EntersInterrupt s →
    stepWith enabled tick s = .next t → t.mode = .servicing →
    ∀ (u : State) (rest : List Byte) (enabled' tick' : Bool), u.mode = .servicing →
      u.reg regSP = t.reg regSP → (∀ a ∈ entryCells s, u.mem.read a = t.mem.read a) →
      fetch u = .ok (.iret, rest) →
      ∃ v, stepWith enabled' tick' u = .next v ∧
        (∀ r : Reg, r ≠ regIS → v.reg r = s.reg r) ∧ v.reg regIS = 0 ∧ v.pc = s.pc ∧
        v.mode = .running ∧ v.fl = u.fl

/-! ## Memory -/

/-- R52 -/
def Obligations.MemReadChecksTheRange : Prop :=
  ∀ (s : State) (a : Int),
    (a < 0 ∨ a > 255 → memRead s a = .error ⟨.addressOutOfRange, .memory a⟩) ∧
    (∀ n : Nat, a = n → n ≤ 255 → memRead s a = .ok (s.mem.read n))

/-- R53: one cell is written, every other cell and all other state is unchanged. -/
def Obligations.MemWriteChangesOneCell : Prop :=
  ∀ (s : State) (a : Int) (v : Byte),
    (a < 0 ∨ a > 255 → memWrite s a v = .error ⟨.addressOutOfRange, .memory a⟩) ∧
    (∀ n : Nat, a = n → n ≤ 255 → ∃ t, memWrite s a v = .ok t ∧ t.mem.read n = v ∧
      SameCellsBut [n] s t ∧ t = { s with mem := t.mem })

/-- Memories in canonical form that read alike at every address are equal: the list is the 256 cells of
R51 and nothing else.  The form is the model's own (log 20). -/
def Obligations.CanonicalMemoriesReadingAlikeAreEqual : Prop :=
  ∀ m m' : Memory, m.wf = true → m'.wf = true → (∀ a, a < 256 → m.read a = m'.read a) → m = m'

/-- R66 (the spec's inference): the fetch after an ST sees the stored byte in any place of the next
instruction. -/
def Obligations.StoreIsSeenByTheNextFetch : Prop :=
  ∀ (a b : Reg) (s : State), ∃ t, exec (.st a b) s = .next t ∧
    ∀ k, k < 3 → s.pc + 3 + k ≤ 255 →
      (fetchWindow t)[k]? = some
        (if s.pc + 3 + k = (s.reg a).toNat then s.reg b else s.mem.read (s.pc + 3 + k))

/-! ## Reset and the invariant -/

/-- R35 with the empty image; R0..R6, `FL` and `ir` are decisions D2, D3, D4, D6 (log 2), the draw counter
is the model's own (log 3). -/
def Obligations.ResetValues : Prop :=
  (∀ r : Reg, r.val < 6 → State.reset.reg r = 0) ∧ State.reset.reg regIS = 0 ∧
  State.reset.reg regSP = 244 ∧ State.reset.pc = 0 ∧ State.reset.ir = 0 ∧ State.reset.fl = 0 ∧
  (∀ a, State.reset.mem.read a = 0) ∧ State.reset.mode = .running ∧ State.reset.fault = none ∧
  State.reset.out = []

/-- R210, R212: an image of at most 256 bytes is copied from address 0 and every other cell is 0, all
else being as in reset; any other image is refused (decision D23, log 14).  An image is a list of natural
numbers, so a negative element cannot be written down. -/
def Obligations.ImageIsLoadedFromZero : Prop :=
  ∀ image : List Nat,
    (image.length ≤ 256 → (∀ b ∈ image, b < 256) → ∃ s, State.resetWithImage image = .ok s ∧
      (∀ k (h : k < image.length), (s.mem.read k).toNat = image[k]) ∧
      (∀ a, image.length ≤ a → s.mem.read a = 0) ∧ s = { State.reset with mem := s.mem }) ∧
    (256 < image.length ∨ (∃ b ∈ image, 255 < b) →
      State.resetWithImage image = .error .imageNotAccepted)

/-- The invariant holds after reset (R35).  It rests on the reset values of log 2 (decisions D3, D4) and on
the canonical form of memory, the model's own (log 20). -/
def Obligations.ResetSatisfiesTheInvariant : Prop := Inv State.reset

/-- The invariant holds after reset with any image the core accepts (R35, R210, R212).  It rests on the reset
values of log 2 (decisions D3, D4), on the model's reset with an image (decision D23, log 14) and on the
canonical form of memory, the model's own (log 20). -/
def Obligations.ImageResetSatisfiesTheInvariant : Prop :=
  ∀ (image : List Nat) (s : State), State.resetWithImage image = .ok s → Inv s

/-- Every step keeps the invariant, whatever the timer draws: `pc` in 0..256 (R22, R80), `FL` legal (R27),
memory canonical, R6 = 1 between the steps of the inner loop (R183), the fault record with FAULTED
and never UnsupportedOperation (R31, R175, R177).  That memory is canonical is a clause about the model's
own form of it (log 20), no rule of the spec; the record's code and `pc` are decision D11 (log 15); the
range of `pc` is decision D7 (log 6). -/
def Obligations.EveryStepKeepsTheInvariant : Prop :=
  (∀ (enabled tick : Bool) (s t : State), Inv s → stepWith enabled tick s = .next t → Inv t) ∧
  (∀ s t : State, Inv s → step s = .next t → Inv t)
end

