-- ==== Sys2Proof/Laws/Decode.lean ====
section
/-! SUPPORT. The operand check and the opcode table: what each can answer. -/

namespace Sys2Proof

@[simp] theorem toNat_regByte (r : Reg) : (regByte r).toNat = r.val := by
  revert r; decide

/-- A register's own byte names it. -/
@[simp] theorem regIdx_regByte (r : Reg) : regIdx (regByte r) = some r := by
  unfold regIdx
  rw [dif_pos (by rw [toNat_regByte]; exact r.isLt)]
  simp

/-- A byte above 7 names no register (R78). -/
theorem regIdx_none {f : Byte} (h : 7 < f.toNat) : regIdx f = none := by
  unfold regIdx
  rw [dif_neg (by omega)]

/-- A byte that names a register is that register's byte: nothing is masked (R78). -/
theorem regIdx_inv {f : Byte} {r : Reg} (h : regIdx f = some r) : f = regByte r := by
  unfold regIdx at h
  split at h
  · cases h
    exact BitVec.eq_of_toNat_eq (by rw [toNat_regByte])
  · cases h

/-- `operandsOk` and `regIdx` agree on which bytes name a register. -/
theorem registerByteOk_iff (f : Byte) : registerByteOk f = true ↔ ∃ r, regIdx f = some r := by
  constructor
  · intro h
    refine ⟨⟨f.toNat, of_decide_eq_true h⟩, ?_⟩
    unfold regIdx
    rw [dif_pos (of_decide_eq_true h)]
  · rintro ⟨r, h⟩
    rw [regIdx_inv h]
    exact decide_eq_true (by rw [toNat_regByte]; exact r.isLt)

/-- A row the decoder finds stands in the table. -/
theorem lookupOpcode_mem {op : Byte} {shape : Shape} (h : lookupOpcode op = some shape) :
    (op, shape) ∈ opcodeTable := by
  unfold lookupOpcode at h
  obtain ⟨⟨op', shape'⟩, hf, rfl⟩ := Option.map_eq_some_iff.mp h
  have he := List.find?_some hf
  simp only [beq_iff_eq] at he
  subst he
  exact List.mem_of_find?_eq_some hf

end Sys2Proof
end

