-- ==== Sys2Proof/Laws/State.lean ====
section
/-! SUPPORT. One lemma per field for each named update of the state, and what a register reads after
each update. -/

namespace Sys2Proof.Machine

variable (s : State)

/-! ## `State.setReg` -/

@[simp] theorem State.setReg_regs (r : Reg) (v : Byte) : (s.setReg r v).regs = s.regs.set r v := rfl
@[simp] theorem State.setReg_pc (r : Reg) (v : Byte) : (s.setReg r v).pc = s.pc := rfl
@[simp] theorem State.setReg_ir (r : Reg) (v : Byte) : (s.setReg r v).ir = s.ir := rfl
@[simp] theorem State.setReg_fl (r : Reg) (v : Byte) : (s.setReg r v).fl = s.fl := rfl
@[simp] theorem State.setReg_mem (r : Reg) (v : Byte) : (s.setReg r v).mem = s.mem := rfl
@[simp] theorem State.setReg_mode (r : Reg) (v : Byte) : (s.setReg r v).mode = s.mode := rfl
@[simp] theorem State.setReg_fault (r : Reg) (v : Byte) : (s.setReg r v).fault = s.fault := rfl
@[simp] theorem State.setReg_out (r : Reg) (v : Byte) : (s.setReg r v).out = s.out := rfl
@[simp] theorem State.setReg_draws (r : Reg) (v : Byte) : (s.setReg r v).draws = s.draws := rfl

/-! ## `State.setPc` -/

@[simp] theorem State.setPc_regs (n : Nat) : (s.setPc n).regs = s.regs := rfl
@[simp] theorem State.setPc_pc (n : Nat) : (s.setPc n).pc = n := rfl
@[simp] theorem State.setPc_ir (n : Nat) : (s.setPc n).ir = s.ir := rfl
@[simp] theorem State.setPc_fl (n : Nat) : (s.setPc n).fl = s.fl := rfl
@[simp] theorem State.setPc_mem (n : Nat) : (s.setPc n).mem = s.mem := rfl
@[simp] theorem State.setPc_mode (n : Nat) : (s.setPc n).mode = s.mode := rfl
@[simp] theorem State.setPc_fault (n : Nat) : (s.setPc n).fault = s.fault := rfl
@[simp] theorem State.setPc_out (n : Nat) : (s.setPc n).out = s.out := rfl
@[simp] theorem State.setPc_draws (n : Nat) : (s.setPc n).draws = s.draws := rfl
@[simp] theorem State.setPc_reg (n : Nat) (q : Reg) : (s.setPc n).reg q = s.reg q := rfl

/-! ## `State.advance` -/

@[simp] theorem State.advance_regs (n : Nat) : (s.advance n).regs = s.regs := rfl
@[simp] theorem State.advance_pc (n : Nat) : (s.advance n).pc = s.pc + n := rfl
@[simp] theorem State.advance_ir (n : Nat) : (s.advance n).ir = s.ir := rfl
@[simp] theorem State.advance_fl (n : Nat) : (s.advance n).fl = s.fl := rfl
@[simp] theorem State.advance_mem (n : Nat) : (s.advance n).mem = s.mem := rfl
@[simp] theorem State.advance_mode (n : Nat) : (s.advance n).mode = s.mode := rfl
@[simp] theorem State.advance_fault (n : Nat) : (s.advance n).fault = s.fault := rfl
@[simp] theorem State.advance_out (n : Nat) : (s.advance n).out = s.out := rfl
@[simp] theorem State.advance_draws (n : Nat) : (s.advance n).draws = s.draws := rfl
@[simp] theorem State.advance_reg (n : Nat) (q : Reg) : (s.advance n).reg q = s.reg q := rfl

/-! ## `State.setFl` -/

@[simp] theorem State.setFl_regs (v : BitVec 3) : (s.setFl v).regs = s.regs := rfl
@[simp] theorem State.setFl_pc (v : BitVec 3) : (s.setFl v).pc = s.pc := rfl
@[simp] theorem State.setFl_ir (v : BitVec 3) : (s.setFl v).ir = s.ir := rfl
@[simp] theorem State.setFl_fl (v : BitVec 3) : (s.setFl v).fl = v := rfl
@[simp] theorem State.setFl_mem (v : BitVec 3) : (s.setFl v).mem = s.mem := rfl
@[simp] theorem State.setFl_mode (v : BitVec 3) : (s.setFl v).mode = s.mode := rfl
@[simp] theorem State.setFl_fault (v : BitVec 3) : (s.setFl v).fault = s.fault := rfl
@[simp] theorem State.setFl_out (v : BitVec 3) : (s.setFl v).out = s.out := rfl
@[simp] theorem State.setFl_draws (v : BitVec 3) : (s.setFl v).draws = s.draws := rfl
@[simp] theorem State.setFl_reg (v : BitVec 3) (q : Reg) : (s.setFl v).reg q = s.reg q := rfl

/-! ## `State.emit` -/

@[simp] theorem State.emit_regs (k : OutKind) (v : Byte) : (s.emit k v).regs = s.regs := rfl
@[simp] theorem State.emit_pc (k : OutKind) (v : Byte) : (s.emit k v).pc = s.pc := rfl
@[simp] theorem State.emit_ir (k : OutKind) (v : Byte) : (s.emit k v).ir = s.ir := rfl
@[simp] theorem State.emit_fl (k : OutKind) (v : Byte) : (s.emit k v).fl = s.fl := rfl
@[simp] theorem State.emit_mem (k : OutKind) (v : Byte) : (s.emit k v).mem = s.mem := rfl
@[simp] theorem State.emit_mode (k : OutKind) (v : Byte) : (s.emit k v).mode = s.mode := rfl
@[simp] theorem State.emit_fault (k : OutKind) (v : Byte) : (s.emit k v).fault = s.fault := rfl
@[simp] theorem State.emit_out (k : OutKind) (v : Byte) : (s.emit k v).out = s.out ++ [⟨k, v⟩] := rfl
@[simp] theorem State.emit_draws (k : OutKind) (v : Byte) : (s.emit k v).draws = s.draws := rfl
@[simp] theorem State.emit_reg (k : OutKind) (v : Byte) (q : Reg) : (s.emit k v).reg q = s.reg q := rfl

/-! ## `State.enterFaulted` -/

@[simp] theorem State.enterFaulted_regs (f : Failure) (op : Option Byte) : (s.enterFaulted f op).regs = s.regs := rfl
@[simp] theorem State.enterFaulted_pc (f : Failure) (op : Option Byte) : (s.enterFaulted f op).pc = s.pc := rfl
@[simp] theorem State.enterFaulted_ir (f : Failure) (op : Option Byte) : (s.enterFaulted f op).ir = s.ir := rfl
@[simp] theorem State.enterFaulted_fl (f : Failure) (op : Option Byte) : (s.enterFaulted f op).fl = s.fl := rfl
@[simp] theorem State.enterFaulted_mem (f : Failure) (op : Option Byte) : (s.enterFaulted f op).mem = s.mem := rfl
@[simp] theorem State.enterFaulted_mode (f : Failure) (op : Option Byte) : (s.enterFaulted f op).mode = .faulted := rfl
@[simp] theorem State.enterFaulted_fault (f : Failure) (op : Option Byte) : (s.enterFaulted f op).fault = some ⟨f.kind, f.kind.code, s.pc, op, f.detail⟩ := rfl
@[simp] theorem State.enterFaulted_out (f : Failure) (op : Option Byte) : (s.enterFaulted f op).out = s.out := rfl
@[simp] theorem State.enterFaulted_draws (f : Failure) (op : Option Byte) : (s.enterFaulted f op).draws = s.draws := rfl
@[simp] theorem State.enterFaulted_reg (f : Failure) (op : Option Byte) (q : Reg) : (s.enterFaulted f op).reg q = s.reg q := rfl

/-! ## Registers -/

theorem State.reg_setReg (r q : Reg) (v : Byte) :
    (s.setReg r v).reg q = if q = r then v else s.reg q := by
  unfold State.reg State.setReg
  by_cases h : q = r
  · subst h; simp
  · have : r.val ≠ q.val := fun e => h (Fin.ext e.symm)
    simp [h, Vector.getElem_set_ne, this]

@[simp] theorem State.reg_setReg_self (r : Reg) (v : Byte) : (s.setReg r v).reg r = v := by
  simp [State.reg_setReg]

theorem State.reg_setReg_ne {r q : Reg} (v : Byte) (h : q ≠ r) :
    (s.setReg r v).reg q = s.reg q := by
  simp [State.reg_setReg, h]

/-- Two register files that read alike are equal. -/
theorem regs_ext {s t : State} (h : ∀ r, t.reg r = s.reg r) : t.regs = s.regs := by
  apply Vector.ext
  intro i hi
  exact h ⟨i, hi⟩

end Sys2Proof.Machine
end

