-- ==== Sys2Proof/Laws/Memory.lean ====
section
/-! SUPPORT. Memory: read after write, the canonical form and its preservation, and the two primitives
of spec/20_memory.md R52, R53. -/

namespace Sys2Proof.Machine

namespace Memory

@[simp] theorem read_nil (a : Nat) : Memory.read [] a = Memory.unlisted := rfl

theorem read_cons_cell (k : Nat) (v : Byte) (m : Memory) (a : Nat) :
    Memory.read ((k, v) :: m) a = if k = a then v else Memory.read m a := rfl

theorem wfFrom_cons_iff (lo k : Nat) (v : Byte) (m : Memory) :
    wfFrom lo ((k, v) :: m) = true ↔
      lo ≤ k ∧ k < memSize ∧ v ≠ Memory.unlisted ∧ wfFrom (k + 1) m = true := by
  simp only [wfFrom, Bool.and_eq_true, decide_eq_true_eq, and_assoc]

theorem wfFrom_mono {lo lo' : Nat} {m : Memory} (h : wfFrom lo m = true) (hl : lo' ≤ lo) :
    wfFrom lo' m = true := by
  cases m with
  | nil => rfl
  | cons c rest =>
    rw [wfFrom_cons_iff] at h ⊢
    exact ⟨by omega, h.2⟩

/-- Below the first listed address every cell reads as an unlisted one. -/
theorem read_of_lt {lo : Nat} {m : Memory} (h : wfFrom lo m = true) {a : Nat} (ha : a < lo) :
    Memory.read m a = Memory.unlisted := by
  induction m generalizing lo with
  | nil => rfl
  | cons c rest ih =>
    rw [wfFrom_cons_iff] at h
    rw [read_cons_cell, if_neg (by omega)]
    exact ih h.2.2.2 (by omega)

/-! ### Erasing and inserting a cell -/

theorem read_erase (m : Memory) (a b : Nat) :
    Memory.read (m.erase a) b = if b = a then Memory.unlisted else Memory.read m b := by
  induction m with
  | nil => simp [Memory.erase]
  | cons c rest ih =>
    obtain ⟨k, w⟩ := c
    unfold Memory.erase
    rw [read_cons_cell]
    by_cases hk : k = a
    · rw [if_pos hk, ih]
      by_cases hb : b = a
      · simp [hb]
      · simp [hb, show ¬ k = b by omega]
    · rw [if_neg hk, read_cons_cell, ih]
      by_cases hb : k = b
      · simp [hb, show ¬ b = a by omega]
      · simp [hb]

/-- Cell `a` is not listed after it is erased. -/
theorem erase_unlisted (m : Memory) (a : Nat) : ∀ c ∈ m.erase a, c.1 ≠ a := by
  induction m with
  | nil => simp [Memory.erase]
  | cons c rest ih =>
    obtain ⟨k, w⟩ := c
    unfold Memory.erase
    split
    · exact ih
    · intro c hc
      rcases List.mem_cons.mp hc with rfl | hc
      · assumption
      · exact ih c hc

theorem read_insert {m : Memory} {a : Nat} (h : ∀ c ∈ m, c.1 ≠ a) (v : Byte) (b : Nat) :
    Memory.read (m.insert a v) b = if b = a then v else Memory.read m b := by
  induction m with
  | nil =>
    simp only [Memory.insert, read_cons_cell, read_nil, eq_comm (a := a)]
  | cons c rest ih =>
    obtain ⟨k, w⟩ := c
    have hk : k ≠ a := h (k, w) (by simp)
    have ih := ih (fun c hc => h c (by simp [hc]))
    unfold Memory.insert
    split
    · simp only [read_cons_cell, eq_comm (a := a)]
    · rw [read_cons_cell, read_cons_cell, ih]
      by_cases hb : k = b
      · simp [hb, show ¬ b = a by omega]
      · simp [hb]

theorem wfFrom_erase {lo : Nat} {m : Memory} (h : wfFrom lo m = true) (a : Nat) :
    wfFrom lo (m.erase a) = true := by
  induction m generalizing lo with
  | nil => rfl
  | cons c rest ih =>
    rw [wfFrom_cons_iff] at h
    unfold Memory.erase
    split
    · exact ih (wfFrom_mono h.2.2.2 (by omega))
    · rw [wfFrom_cons_iff]
      exact ⟨h.1, h.2.1, h.2.2.1, ih h.2.2.2⟩

theorem wfFrom_insert {lo a : Nat} {v : Byte} {m : Memory} (h : wfFrom lo m = true) (hlo : lo ≤ a)
    (ha : a < memSize) (hm : ∀ c ∈ m, c.1 ≠ a) (hv : v ≠ Memory.unlisted) :
    wfFrom lo (m.insert a v) = true := by
  induction m generalizing lo with
  | nil =>
    unfold Memory.insert
    rw [wfFrom_cons_iff]
    exact ⟨hlo, ha, hv, rfl⟩
  | cons c rest ih =>
    obtain ⟨k, w⟩ := c
    have hk : k ≠ a := hm (k, w) (by simp)
    rw [wfFrom_cons_iff] at h
    unfold Memory.insert
    split
    · rw [wfFrom_cons_iff, wfFrom_cons_iff]
      exact ⟨hlo, ha, hv, by omega, h.2⟩
    · rw [wfFrom_cons_iff]
      exact ⟨h.1, h.2.1, h.2.2.1, ih h.2.2.2 (by omega) (fun c hc => hm c (by simp [hc]))⟩

/-! ### Writing a cell -/

/-- Read after write, in every memory: the cell written gives the value written, every other cell
reads as before. -/
theorem read_write (m : Memory) (a : Nat) (v : Byte) (b : Nat) :
    Memory.read (m.write a v) b = if b = a then v else Memory.read m b := by
  unfold Memory.write
  split
  · rename_i hv
    rw [read_erase, hv]
  · rw [read_insert (erase_unlisted m a), read_erase]
    by_cases hb : b = a <;> simp [hb]

@[simp] theorem read_write_self (m : Memory) (a : Nat) (v : Byte) :
    Memory.read (m.write a v) a = v := by simp [read_write]

theorem read_write_ne (m : Memory) {a b : Nat} (v : Byte) (h : b ≠ a) :
    Memory.read (m.write a v) b = Memory.read m b := by simp [read_write, h]

/-- A write keeps the canonical form. -/
theorem wf_write {m : Memory} (h : m.wf = true) {a : Nat} (ha : a < memSize) (v : Byte) :
    (m.write a v).wf = true := by
  unfold Memory.write
  split
  · exact wfFrom_erase h a
  · exact wfFrom_insert (wfFrom_erase h a) (Nat.zero_le a) ha (erase_unlisted m a) ‹_›

end Memory

/-! ## The primitives -/

/-- `MemRead` inside memory. -/
theorem memRead_ok (s : State) {a : Nat} (h : a ≤ 255) : memRead s a = .ok (s.mem.read a) := by
  unfold memRead
  rw [if_neg (by omega)]
  rfl

/-- `MemWrite` inside memory. -/
theorem memWrite_ok (s : State) {a : Nat} (h : a ≤ 255) (v : Byte) :
    memWrite s a v = .ok { s with mem := s.mem.write a v } := by
  unfold memWrite
  rw [if_neg (by omega)]
  rfl

/-- The address of a byte is always inside memory (R101, R102). -/
@[simp] theorem loadVia_ok (s : State) (r : Reg) :
    loadVia s r = .ok (s.mem.read (s.addressIn r)) :=
  memRead_ok s (by have := (s.reg r).isLt; unfold State.addressIn; omega)

@[simp] theorem storeVia_ok (s : State) (r : Reg) (v : Byte) :
    storeVia s r v = .ok { s with mem := s.mem.write (s.addressIn r) v } :=
  memWrite_ok s (by have := (s.reg r).isLt; unfold State.addressIn; omega) v

/-- Bytes written inside memory keep the canonical form. -/
theorem Memory.wf_writeBytes (bytes : List Byte) {m : Memory} (h : m.wf = true) (a : Nat) :
    (Memory.writeBytes m a bytes).wf = true := by
  induction bytes generalizing m a with
  | nil => exact h
  | cons b rest ih =>
    unfold Memory.writeBytes
    split
    · exact ih (Memory.wf_write h ‹_› b) (a + 1)
    · exact h

/-- What a cell reads after bytes are written from `a` on. -/
theorem Memory.read_writeBytes (bytes : List Byte) (m : Memory) (a b : Nat)
    (hfit : a + bytes.length ≤ memSize) :
    Memory.read (Memory.writeBytes m a bytes) b =
      if hb : a ≤ b ∧ b - a < bytes.length then bytes[b - a]'hb.2 else Memory.read m b := by
  induction bytes generalizing m a with
  | nil => simp [Memory.writeBytes]
  | cons x rest ih =>
    simp only [List.length_cons] at hfit
    unfold Memory.writeBytes
    rw [if_pos (by omega), ih (m.write a x) (a + 1) (by omega),
      Memory.read_write]
    by_cases h1 : b = a
    · subst h1; simp
    · by_cases h2 : a + 1 ≤ b
      · have e : b - a = (b - (a + 1)) + 1 := by omega
        simp [h1, h2, e, show a ≤ b by omega]
      · have h3 : ¬ a ≤ b := by omega
        simp [h1, h2, h3]

end Sys2Proof.Machine
end

