-- ==== Sys2Proof/Laws/Ops.lean ====
section
/-! SUPPORT. What each shared operation can do: narrowing, the stack bounds, the stack primitives, the
interrupt entry and the return from it, and the end of an instruction. -/

namespace Sys2Proof.Machine

/-! ## Narrowing -/

theorem wrap8_natCast (n : Nat) : wrap8 (n : Int) = BitVec.ofNat 8 n := by
  unfold wrap8
  apply BitVec.eq_of_toNat_eq
  simp

theorem toNat_wrap8_natCast (n : Nat) : (wrap8 (n : Int)).toNat = n % 256 := by
  rw [wrap8_natCast]; simp

/-- The byte below a byte above 0, as SP is decremented. -/
theorem toNat_wrap8_pred {b : Byte} (h : 1 ≤ b.toNat) :
    (wrap8 ((b.toNat : Int) - 1)).toNat = b.toNat - 1 := by
  have hb := b.isLt
  rw [show ((b.toNat : Int) - 1) = ((b.toNat - 1 : Nat) : Int) by omega, toNat_wrap8_natCast]
  omega

/-- The byte above a byte below 255, as SP is incremented. -/
theorem toNat_wrap8_succ {b : Byte} (h : b.toNat < 255) :
    (wrap8 ((b.toNat : Int) + 1)).toNat = b.toNat + 1 := by
  rw [show ((b.toNat : Int) + 1) = ((b.toNat + 1 : Nat) : Int) by omega, toNat_wrap8_natCast]
  omega

/-! ## Registers of the stack and the interrupt -/

theorem stackTop_eq : stackTop = 244 := rfl
theorem stackLow_eq : stackLow = 0 := rfl
theorem intVector_eq : intVector = 248 := rfl
theorem regSP_eq : regSP = 7 := rfl
theorem regIS_eq : regIS = 6 := rfl

/-! ## The stack bounds -/

theorem stackCheck_ok (s : State) {lo hi : Int} (h1 : 0 ≤ lo) (h2 : hi < 244) :
    stackCheck s lo hi = .ok () := by
  unfold stackCheck
  rw [stackTop_eq, stackLow_eq, if_neg (by omega), if_neg (by omega)]

theorem stackCheck_overflow (s : State) {lo hi : Int} (h1 : lo < 0) :
    stackCheck s lo hi = .error ⟨.stackOverflow, .sp (s.reg regSP)⟩ := by
  unfold stackCheck
  rw [stackLow_eq, if_pos (by omega)]

theorem stackCheck_underflow (s : State) {lo hi : Int} (h1 : 0 ≤ lo) (h2 : 244 ≤ hi) :
    stackCheck s lo hi = .error ⟨.stackUnderflow, .sp (s.reg regSP)⟩ := by
  unfold stackCheck
  rw [stackTop_eq, stackLow_eq, if_neg (by omega), if_pos (by omega)]

/-! ## The stack primitives -/

/-- A push inside the bounds (R58). -/
theorem stackPush_ok {s : State} {v : Nat} (h1 : 1 ≤ (s.reg regSP).toNat)
    (h2 : (s.reg regSP).toNat ≤ 244) (hv : v ≤ 255) :
    stackPush v s = .ok { s.setReg regSP (wrap8 (((s.reg regSP).toNat : Int) - 1)) with
      mem := s.mem.write ((s.reg regSP).toNat - 1) (BitVec.ofNat 8 v) } := by
  have e : (((s.reg regSP).toNat : Int) - 1) = (((s.reg regSP).toNat - 1 : Nat) : Int) := by omega
  unfold stackPush
  dsimp only
  rw [stackCheck_ok s (by omega) (by omega)]
  simp only [bind, Except.bind]
  rw [if_neg (by omega), e, memWrite_ok _ (by omega)]
  rfl

/-- A push below the lowest cell (R58). -/
theorem stackPush_overflow {s : State} (v : Nat) (h : (s.reg regSP).toNat = 0) :
    stackPush v s = .error ⟨.stackOverflow, .sp (s.reg regSP)⟩ := by
  unfold stackPush
  dsimp only
  rw [stackCheck_overflow s (by omega)]
  rfl

/-- A push at or above the top (R58). -/
theorem stackPush_underflow {s : State} (v : Nat) (h : 244 < (s.reg regSP).toNat) :
    stackPush v s = .error ⟨.stackUnderflow, .sp (s.reg regSP)⟩ := by
  unfold stackPush
  dsimp only
  rw [stackCheck_underflow s (by omega) (by omega)]
  rfl

/-- A value that does not fit a byte (R58). -/
theorem stackPush_value {s : State} {v : Nat} (h1 : 1 ≤ (s.reg regSP).toNat)
    (h2 : (s.reg regSP).toNat ≤ 244) (hv : 255 < v) :
    stackPush v s = .error ⟨.addressOutOfRange, .value v⟩ := by
  unfold stackPush
  dsimp only
  rw [stackCheck_ok s (by omega) (by omega)]
  simp only [bind, Except.bind]
  rw [if_pos (by omega)]

/-- Everything a push can do. -/
theorem stackPush_inv {s t : State} {v : Nat} (h : stackPush v s = .ok t) :
    1 ≤ (s.reg regSP).toNat ∧ (s.reg regSP).toNat ≤ 244 ∧ v ≤ 255 ∧
      t = { s.setReg regSP (wrap8 (((s.reg regSP).toNat : Int) - 1)) with
        mem := s.mem.write ((s.reg regSP).toNat - 1) (BitVec.ofNat 8 v) } := by
  rcases Nat.eq_zero_or_pos (s.reg regSP).toNat with h0 | h1
  · rw [stackPush_overflow v h0] at h; cases h
  by_cases h2 : (s.reg regSP).toNat ≤ 244
  · by_cases hv : v ≤ 255
    · rw [stackPush_ok h1 h2 hv] at h
      cases h
      exact ⟨h1, h2, hv, rfl⟩
    · rw [stackPush_value h1 h2 (by omega)] at h; cases h
  · rw [stackPush_underflow v (by omega)] at h; cases h

/-- A pop inside the bounds (R59). -/
theorem stackPop_ok {s : State} (h : (s.reg regSP).toNat < 244) :
    stackPop s = .ok (s.mem.read (s.reg regSP).toNat,
      s.setReg regSP (wrap8 (((s.reg regSP).toNat : Int) + 1))) := by
  unfold stackPop
  dsimp only
  rw [stackCheck_ok s (by omega) (by omega)]
  simp only [bind, Except.bind]
  rw [memRead_ok s (by omega)]

/-- A pop at or above the top (R59). -/
theorem stackPop_underflow {s : State} (h : 244 ≤ (s.reg regSP).toNat) :
    stackPop s = .error ⟨.stackUnderflow, .sp (s.reg regSP)⟩ := by
  unfold stackPop
  dsimp only
  rw [stackCheck_underflow s (by omega) (by omega)]
  rfl

/-- Everything a pop can do. -/
theorem stackPop_inv {s t : State} {v : Byte} (h : stackPop s = .ok (v, t)) :
    (s.reg regSP).toNat < 244 ∧ v = s.mem.read (s.reg regSP).toNat ∧
      t = s.setReg regSP (wrap8 (((s.reg regSP).toNat : Int) + 1)) := by
  by_cases h1 : (s.reg regSP).toNat < 244
  · rw [stackPop_ok h1] at h
    cases h
    exact ⟨h1, rfl, rfl⟩
  · rw [stackPop_underflow (by omega)] at h; cases h

/-! ## Lists of pushes and pops -/

/-- Pushing a list of registers, none of them SP, with room for all: the k-th register lies k cells
below the first, SP has moved down by the list's length, and nothing else changes. -/
theorem pushRegs_ok (rs : List Reg) {s : State} (hrs : regSP ∉ rs)
    (h1 : rs.length ≤ (s.reg regSP).toNat) (h2 : (s.reg regSP).toNat ≤ 244) :
    ∃ t, pushRegs rs s = .ok t ∧
      (t.reg regSP).toNat = (s.reg regSP).toNat - rs.length ∧
      (∀ r, r ≠ regSP → t.reg r = s.reg r) ∧
      (∀ k (hk : k < rs.length), t.mem.read ((s.reg regSP).toNat - 1 - k) = s.reg rs[k]) ∧
      (∀ a, (a < (s.reg regSP).toNat - rs.length ∨ (s.reg regSP).toNat ≤ a) →
        t.mem.read a = s.mem.read a) ∧
      (s.mem.wf = true → t.mem.wf = true) ∧
      t = { s with regs := t.regs, mem := t.mem } := by
  induction rs generalizing s with
  | nil => exact ⟨s, rfl, by simp, by simp, by simp, by simp, id, rfl⟩
  | cons r rest ih =>
    simp only [List.length_cons] at h1
    have hr : r ≠ regSP := fun e => hrs (by simp [e])
    have hrest : regSP ∉ rest := fun e => hrs (by simp [e])
    have hp := stackPush_ok (s := s) (v := (s.reg r).toNat) (by omega) h2 (by omega)
    generalize hu : ({ s.setReg regSP (wrap8 (((s.reg regSP).toNat : Int) - 1)) with
        mem := s.mem.write ((s.reg regSP).toNat - 1) (BitVec.ofNat 8 (s.reg r).toNat) } : State)
        = u at hp
    have husp : (u.reg regSP).toNat = (s.reg regSP).toNat - 1 := by
      subst hu
      rw [← toNat_wrap8_pred (b := s.reg regSP) (by omega)]
      exact congrArg BitVec.toNat (State.reg_setReg_self s regSP _)
    have hureg : ∀ q, q ≠ regSP → u.reg q = s.reg q := by
      subst hu
      intro q hq
      exact State.reg_setReg_ne s _ hq
    have humem : ∀ a, u.mem.read a =
        if a = (s.reg regSP).toNat - 1 then s.reg r else s.mem.read a := by
      subst hu
      intro a
      simp [Memory.read_write]
    obtain ⟨t, ht, htsp, htreg, htmem, htout, htwf, hteq⟩ :=
      ih (s := u) hrest (by omega) (by omega)
    refine ⟨t, ?_, ?_, ?_, ?_, ?_, ?_, ?_⟩
    · simp only [pushRegs, hp, bind, Except.bind]
      exact ht
    · simp only [List.length_cons]; omega
    · intro q hq
      rw [htreg q hq, hureg q hq]
    · intro k hk
      cases k with
      | zero =>
        rw [htout _ (by omega), humem]
        simp
      | succ k =>
        simp only [List.length_cons] at hk
        have := htmem k (by omega)
        rw [husp] at this
        rw [show (s.reg regSP).toNat - 1 - (k + 1) = (s.reg regSP).toNat - 1 - 1 - k by omega, this,
          hureg _ (fun e => hrest (by rw [← e]; exact List.getElem_mem _))]
        simp
    · intro a ha
      simp only [List.length_cons] at ha
      rw [htout a (by omega), humem, if_neg (by omega)]
    · intro hw
      apply htwf
      subst hu
      exact Memory.wf_write hw (by unfold memSize; omega) _
    · rw [hteq]
      subst hu
      rfl

/-- Popping a list of distinct registers, none of them SP, with enough on the stack: the k-th register
gets the k-th byte from the top, SP has moved up by the list's length, and nothing else changes. -/
theorem popRegs_ok (rs : List Reg) {s : State} (hrs : regSP ∉ rs) (hd : rs.Nodup)
    (h2 : (s.reg regSP).toNat + rs.length ≤ 244) :
    ∃ t, popRegs rs s = .ok t ∧
      (t.reg regSP).toNat = (s.reg regSP).toNat + rs.length ∧
      (∀ k (hk : k < rs.length), t.reg rs[k] = s.mem.read ((s.reg regSP).toNat + k)) ∧
      (∀ r, r ≠ regSP → r ∉ rs → t.reg r = s.reg r) ∧
      t = { s with regs := t.regs } := by
  induction rs generalizing s with
  | nil => exact ⟨s, rfl, by simp, by simp, by simp, rfl⟩
  | cons r rest ih =>
    simp only [List.length_cons] at h2
    have hr : r ≠ regSP := fun e => hrs (by simp [e])
    have hrest : regSP ∉ rest := fun e => hrs (by simp [e])
    have hnr : r ∉ rest := (List.nodup_cons.mp hd).1
    have hp := stackPop_ok (s := s) (by omega)
    generalize hu : (s.setReg regSP (wrap8 (((s.reg regSP).toNat : Int) + 1))).setReg r
        (s.mem.read (s.reg regSP).toNat) = u
    have husp : (u.reg regSP).toNat = (s.reg regSP).toNat + 1 := by
      subst hu
      rw [State.reg_setReg_ne _ _ (Ne.symm hr), State.reg_setReg_self,
        toNat_wrap8_succ (by omega)]
    have hur : u.reg r = s.mem.read (s.reg regSP).toNat := by
      subst hu
      exact State.reg_setReg_self _ _ _
    have hureg : ∀ q, q ≠ regSP → q ≠ r → u.reg q = s.reg q := by
      subst hu
      intro q hq hqr
      rw [State.reg_setReg_ne _ _ hqr, State.reg_setReg_ne _ _ hq]
    have humem : u.mem = s.mem := by subst hu; rfl
    obtain ⟨t, ht, htsp, htreg, htout, hteq⟩ :=
      ih (s := u) hrest (List.nodup_cons.mp hd).2 (by omega)
    refine ⟨t, ?_, ?_, ?_, ?_, ?_⟩
    · simp only [popRegs, hp, bind, Except.bind]
      rw [hu]
      exact ht
    · simp only [List.length_cons]; omega
    · intro k hk
      cases k with
      | zero => simpa [htout r hr hnr] using hur
      | succ k =>
        simp only [List.length_cons] at hk
        have := htreg k (by omega)
        rw [husp, humem] at this
        rw [show (s.reg regSP).toNat + (k + 1) = (s.reg regSP).toNat + 1 + k by omega, ← this]
        simp
    · intro q hq hqr
      simp only [List.mem_cons, not_or] at hqr
      rw [htout q hq hqr.2, hureg q hq hqr.1]
    · rw [hteq]
      subst hu
      rfl

/-! ## The end of an instruction -/

@[simp] theorem conclude_ok (op : Byte) (s t : State) :
    conclude op s (.ok t) = .next { t with ir := op } := rfl

@[simp] theorem conclude_error (op : Byte) (s : State) (f : Failure) :
    conclude op s (.error f) = .next (s.enterFaulted f (some op)) := rfl

/-- Everything the end of an instruction can do. -/
theorem conclude_inv {op : Byte} {s t : State} {r : Except Failure State}
    (h : conclude op s r = .next t) :
    (∃ u, r = .ok u ∧ t = { u with ir := op }) ∨
      (∃ f, r = .error f ∧ t = s.enterFaulted f (some op)) := by
  cases r with
  | ok u => cases h; exact .inl ⟨u, rfl, rfl⟩
  | error f => cases h; exact .inr ⟨f, rfl, rfl⟩

/-- An instruction always answers a next state. -/
theorem conclude_next (op : Byte) (s : State) (r : Except Failure State) :
    ∃ t, conclude op s r = .next t := by
  cases r with
  | ok u => exact ⟨_, rfl⟩
  | error f => exact ⟨_, rfl⟩

/-! ## The interrupt: entry and return -/

/-- The interrupt entry inside the bounds: R184's table. -/
theorem enterInterrupt_ok {s : State} (h1 : 8 ≤ (s.reg regSP).toNat)
    (h2 : (s.reg regSP).toNat ≤ 244) (hpc : s.pc ≤ 255) :
    ∃ t, enterInterrupt s = .ok t ∧
      (t.reg regSP).toNat = (s.reg regSP).toNat - 8 ∧
      (∀ r, r ≠ regSP → t.reg r = s.reg r) ∧
      t.mem.read ((s.reg regSP).toNat - 1) = BitVec.ofNat 8 s.pc ∧
      (∀ r : Reg, r ≠ regSP → t.mem.read ((s.reg regSP).toNat - 2 - r.val) = s.reg r) ∧
      (∀ a, (a < (s.reg regSP).toNat - 8 ∨ (s.reg regSP).toNat ≤ a) →
        t.mem.read a = s.mem.read a) ∧
      (s.mem.wf = true → t.mem.wf = true) ∧
      t = { s with
        regs := t.regs, mem := t.mem, pc := (s.mem.read 248).toNat, mode := .servicing } := by
  have hp := stackPush_ok (s := s) (v := s.pc) (by omega) h2 hpc
  generalize hu : ({ s.setReg regSP (wrap8 (((s.reg regSP).toNat : Int) - 1)) with
      mem := s.mem.write ((s.reg regSP).toNat - 1) (BitVec.ofNat 8 s.pc) } : State) = u at hp
  have husp : (u.reg regSP).toNat = (s.reg regSP).toNat - 1 := by
    subst hu
    rw [← toNat_wrap8_pred (b := s.reg regSP) (by omega)]
    exact congrArg BitVec.toNat (State.reg_setReg_self s regSP _)
  have hureg : ∀ q, q ≠ regSP → u.reg q = s.reg q := by
    subst hu
    intro q hq
    exact State.reg_setReg_ne s _ hq
  have humem : ∀ a, u.mem.read a =
      if a = (s.reg regSP).toNat - 1 then BitVec.ofNat 8 s.pc else s.mem.read a := by
    subst hu
    intro a
    simp [Memory.read_write]
  have huwf : s.mem.wf = true → u.mem.wf = true := by
    subst hu
    intro hw
    exact Memory.wf_write hw (by unfold memSize; omega) _
  obtain ⟨t, ht, htsp, htreg, htmem, htout, htwf, hteq⟩ :=
    pushRegs_ok [0, 1, 2, 3, 4, 5, 6] (s := u) (by decide) (by simp; omega) (by omega)
  simp only [List.length_cons, List.length_nil] at htsp htout htmem
  refine ⟨{ t with pc := (s.mem.read 248).toNat, mode := .servicing }, ?_, ?_, ?_, ?_, ?_, ?_, ?_, ?_⟩
  · unfold enterInterrupt
    dsimp only
    rw [stackCheck_ok s (by omega) (by omega)]
    simp only [bind, Except.bind]
    rw [if_neg (by omega), hp]
    simp only [ht]
    rw [show ((intVector : Nat) : Int) = ((248 : Nat) : Int) from rfl, memRead_ok t (by omega),
      htout 248 (by omega), humem, if_neg (by omega)]
  · change (t.reg regSP).toNat = _
    omega
  · intro r hr
    change t.reg r = _
    rw [htreg r hr, hureg r hr]
  · change t.mem.read _ = _
    rw [htout _ (by omega), humem, if_pos rfl]
  · intro r hr
    change t.mem.read _ = _
    have hk : r.val < 7 := by
      have := r.isLt
      have : r.val ≠ 7 := fun e => hr (Fin.ext e)
      omega
    have := htmem r.val hk
    rw [husp] at this
    rw [show (s.reg regSP).toNat - 2 - r.val = (s.reg regSP).toNat - 1 - 1 - r.val by omega, this,
      ← hureg r hr]
    congr 1
    clear this
    revert r
    decide
  · intro a ha
    change t.mem.read a = _
    rw [htout a (by omega), humem, if_neg (by omega)]
  · intro hw
    exact htwf (huwf hw)
  · rw [hteq]
    subst hu
    rfl

/-- Everything the interrupt entry can fail with, in the order of R184. -/
theorem enterInterrupt_error (s : State) :
    ((s.reg regSP).toNat < 8 →
      enterInterrupt s = .error ⟨.stackOverflow, .sp (s.reg regSP)⟩) ∧
    (244 < (s.reg regSP).toNat →
      enterInterrupt s = .error ⟨.stackUnderflow, .sp (s.reg regSP)⟩) ∧
    (8 ≤ (s.reg regSP).toNat → (s.reg regSP).toNat ≤ 244 → 255 < s.pc →
      enterInterrupt s = .error ⟨.addressOutOfRange, .value s.pc⟩) := by
  refine ⟨fun h => ?_, fun h => ?_, fun h1 h2 hpc => ?_⟩
  · unfold enterInterrupt
    dsimp only
    rw [stackCheck_overflow s (by omega)]
    rfl
  · unfold enterInterrupt
    dsimp only
    rw [stackCheck_underflow s (by omega) (by omega)]
    rfl
  · unfold enterInterrupt
    dsimp only
    rw [stackCheck_ok s (by omega) (by omega)]
    simp only [bind, Except.bind]
    rw [if_pos (by omega)]

/-- The interrupt entry answers a next state only inside its bounds. -/
theorem enterInterrupt_bounds {s t : State} (h : enterInterrupt s = .ok t) :
    8 ≤ (s.reg regSP).toNat ∧ (s.reg regSP).toNat ≤ 244 ∧ s.pc ≤ 255 := by
  obtain ⟨h1, h2, h3⟩ := enterInterrupt_error s
  by_cases c1 : 8 ≤ (s.reg regSP).toNat
  · by_cases c2 : (s.reg regSP).toNat ≤ 244
    · by_cases c3 : s.pc ≤ 255
      · exact ⟨c1, c2, c3⟩
      · rw [h3 c1 c2 (by omega)] at h; cases h
    · rw [h2 (by omega)] at h; cases h
  · rw [h1 (by omega)] at h; cases h

/-- The return from an interrupt inside the bounds (R160). -/
theorem returnFromInterrupt_ok {s : State} (h : (s.reg regSP).toNat ≤ 236) :
    ∃ t, returnFromInterrupt s = .ok t ∧
      (t.reg regSP).toNat = (s.reg regSP).toNat + 8 ∧
      t.reg regIS = 0 ∧
      (∀ r : Reg, r.val < 6 → t.reg r = s.mem.read ((s.reg regSP).toNat + 6 - r.val)) ∧
      t = { s with regs := t.regs, pc := (s.mem.read ((s.reg regSP).toNat + 7)).toNat } := by
  obtain ⟨u, hu, husp, hureg, -, hueq⟩ :=
    popRegs_ok [6, 5, 4, 3, 2, 1, 0] (s := s) (by decide) (by decide) (by simp; omega)
  simp only [List.length_cons, List.length_nil] at husp hureg
  have humem : u.mem = s.mem := by rw [hueq]
  have hp := stackPop_ok (s := u) (by omega)
  have hne : regSP ≠ regIS := by decide
  refine ⟨((u.setReg regSP (wrap8 (((u.reg regSP).toNat : Int) + 1))).setPc
      (u.mem.read (u.reg regSP).toNat).toNat).setReg regIS 0, ?_, ?_, ?_, ?_, ?_⟩
  · unfold returnFromInterrupt
    dsimp only
    rw [stackCheck_ok s (by omega) (by omega)]
    simp only [bind, Except.bind, hu, hp]
  · rw [State.reg_setReg_ne _ _ hne, State.setPc_reg, State.reg_setReg_self,
      toNat_wrap8_succ (by omega)]
    omega
  · exact State.reg_setReg_self _ _ _
  · intro r hr
    have h6 : r ≠ regIS := by rintro rfl; revert hr; decide
    have h7 : r ≠ regSP := by rintro rfl; revert hr; decide
    rw [State.reg_setReg_ne _ _ h6, State.setPc_reg, State.reg_setReg_ne _ _ h7]
    have := hureg (6 - r.val) (by omega)
    rw [show (s.reg regSP).toNat + 6 - r.val = (s.reg regSP).toNat + (6 - r.val) by omega, ← this]
    have key : ∀ q : Reg, q.val < 6 → ∀ h : 6 - q.val < [6, 5, 4, 3, 2, 1, 0].length,
        ([6, 5, 4, 3, 2, 1, 0] : List Reg)[6 - q.val]'h = q := by decide
    exact congrArg u.reg (key r hr _).symm
  · rw [humem, show (u.reg regSP).toNat = (s.reg regSP).toNat + 7 by omega]
    rw [hueq]
    rfl

/-- A return with fewer than eight bytes on the stack (R160). -/
theorem returnFromInterrupt_underflow {s : State} (h : 237 ≤ (s.reg regSP).toNat) :
    returnFromInterrupt s = .error ⟨.stackUnderflow, .sp (s.reg regSP)⟩ := by
  unfold returnFromInterrupt
  dsimp only
  rw [stackCheck_underflow s (by omega) (by omega)]
  rfl

end Sys2Proof.Machine
end

