-- ==== Sys2Proof/Laws/Engine.lean ====
section
/-! SUPPORT. The engine: what the fetch reads, and everything an instruction step and a step can do. -/

namespace Sys2Proof.Machine

/-! ## Fetch -/

theorem fetchByte_some (s : State) {a : Nat} (h : a ≤ 255) : fetchByte s a = some (s.mem.read a) := by
  unfold fetchByte
  rw [memRead_ok s h]
  rfl

theorem fetchByte_none (s : State) {a : Nat} (h : 255 < a) : fetchByte s a = none := by
  unfold fetchByte memRead
  rw [if_pos (by omega)]
  rfl

/-- The k-th fetched byte is the cell k places on, and fetching stops at the end of memory. -/
theorem fetchBytes_getElem? (s : State) (n a k : Nat) :
    (fetchBytes s n a)[k]? = if k < n ∧ a + k ≤ 255 then some (s.mem.read (a + k)) else none := by
  induction n generalizing a k with
  | zero => simp [fetchBytes]
  | succ n ih =>
    unfold fetchBytes
    by_cases ha : a ≤ 255
    · rw [fetchByte_some s ha]
      cases k with
      | zero => simp [ha]
      | succ k =>
        simp only [List.getElem?_cons_succ, ih]
        rw [show a + 1 + k = a + (k + 1) by omega]
        simp only [Nat.add_lt_add_iff_right]
    · rw [fetchByte_none s (by omega)]
      simp only [List.getElem?_nil]
      rw [if_neg (by omega)]

/-! ## Outcomes -/

@[simp] theorem onNext_next (f : State → State) (t : State) : onNext f (.next t) = .next (f t) := rfl

/-- Everything `onNext` can do with a next state. -/
theorem onNext_inv {f : State → State} {o : Host.Outcome State Fault Refusal} {t : State}
    (h : onNext f o = .next t) : ∃ u, o = .next u ∧ t = f u := by
  cases o with
  | next u => cases h; exact ⟨u, rfl, rfl⟩
  | fault r => cases h
  | refused r => cases h

/-- Every meaning ends in `conclude` with its own opcode byte. -/
theorem exec_eq_conclude (i : Instr) (s : State) :
    ∃ r, exec i s = conclude (opcodeOf i) s r := by
  cases i <;>
    simp only [exec, execHlt, execPrn, execPra, execLdi, execLd, execSt, execAdd, execMult, execCmp,
      execInc, execDec, execPush, execPop, execCall, execRet, execJmp, execJeq, execJne, execIret] <;>
    exact ⟨_, rfl⟩

/-- Every instruction answers a next state, in every state. -/
theorem exec_next (i : Instr) (s : State) : ∃ t, exec i s = .next t := by
  obtain ⟨r, h⟩ := exec_eq_conclude i s
  rw [h]
  exact conclude_next _ _ _

/-- An instruction step answers a next state, in every state. -/
theorem executeOne_next (s : State) : ∃ t, executeOne s = .next t := by
  unfold executeOne
  split
  · exact ⟨_, rfl⟩
  · exact exec_next _ _

/-- Everything an instruction step can do (R77): the fetch fails, or the fetched instruction runs. -/
theorem executeOne_inv {s t : State} (h : executeOne s = .next t) :
    (∃ e, fetch s = .error e ∧
      t = s.enterFaulted (fetchFailure s.pc e) (fetchedOpcode e)) ∨
    (∃ i rest, fetch s = .ok (i, rest) ∧ exec i s = .next t) := by
  unfold executeOne at h
  split at h
  · cases h; exact .inl ⟨_, ‹_›, rfl⟩
  · exact .inr ⟨_, _, ‹_›, h⟩

/-- Everything the interrupt entry can do (R184). -/
theorem interruptEntry_inv {s t : State} (h : interruptEntry s = .next t) :
    enterInterrupt s = .ok t ∨ (∃ f, enterInterrupt s = .error f ∧ t = s.enterFaulted f none) := by
  unfold interruptEntry at h
  split at h
  · cases h; exact .inl ‹_›
  · cases h; exact .inr ⟨_, ‹_›, rfl⟩

/-- Everything a step can do (R180): an interrupt entry, an outer-loop instruction step, or an
inner-loop instruction step. -/
theorem stepWith_inv {enabled tick : Bool} {s t : State}
    (h : stepWith enabled tick s = .next t) :
    (s.mode = .running ∧ s.reg regIS = 1 ∧ interruptEntry s = .next t) ∨
    (s.mode = .running ∧ s.reg regIS ≠ 1 ∧
      ∃ u, executeOne s = .next u ∧ t = endOuter enabled tick u) ∨
    (s.mode = .servicing ∧ ∃ u, executeOne s = .next u ∧ t = endInner u) := by
  unfold stepWith at h
  split at h
  · cases h
  · cases h
  · split at h
    · exact .inl ⟨‹_›, ‹_›, h⟩
    · exact .inr (.inl ⟨‹_›, ‹_›, onNext_inv h⟩)
  · exact .inr (.inr ⟨‹_›, onNext_inv h⟩)

end Sys2Proof.Machine
end

