-- ==== Sys2Proof/Laws/PerInstr.lean ====
section
/-! SUPPORT. One lemma per instruction: its operand bytes pass the checks of its format, and its
encoding has the length of its format (spec/30_encoding.md R70, R72). -/

namespace Sys2Proof.Laws.OperandBytes

open Sys2Proof

/-- The operand bytes of an instruction fit its format, and so does the length of its encoding. -/
def Statement (i : Instr) : Prop :=
  i.wellFormed = true ∧ (encode i).length = i.format.length

theorem registerByteOk_regByte (r : Reg) : registerByteOk (regByte r) = true :=
  (registerByteOk_iff _).mpr ⟨r, regIdx_regByte r⟩

theorem hlt : Statement .hlt := ⟨rfl, rfl⟩

theorem prn (r : Reg) : Statement (.prn r) := ⟨registerByteOk_regByte r, rfl⟩

theorem pra (r : Reg) : Statement (.pra r) := ⟨registerByteOk_regByte r, rfl⟩

theorem ldi (r : Reg) (imm : Byte) : Statement (.ldi r imm) := ⟨registerByteOk_regByte r, rfl⟩

theorem ld (a b : Reg) : Statement (.ld a b) :=
  ⟨Bool.and_eq_true_iff.mpr ⟨registerByteOk_regByte a, registerByteOk_regByte b⟩, rfl⟩

theorem st (a b : Reg) : Statement (.st a b) :=
  ⟨Bool.and_eq_true_iff.mpr ⟨registerByteOk_regByte a, registerByteOk_regByte b⟩, rfl⟩

theorem add (a b : Reg) : Statement (.add a b) :=
  ⟨Bool.and_eq_true_iff.mpr ⟨registerByteOk_regByte a, registerByteOk_regByte b⟩, rfl⟩

theorem mult (a b : Reg) : Statement (.mult a b) :=
  ⟨Bool.and_eq_true_iff.mpr ⟨registerByteOk_regByte a, registerByteOk_regByte b⟩, rfl⟩

theorem cmp (a b : Reg) : Statement (.cmp a b) :=
  ⟨Bool.and_eq_true_iff.mpr ⟨registerByteOk_regByte a, registerByteOk_regByte b⟩, rfl⟩

theorem inc (r : Reg) : Statement (.inc r) := ⟨registerByteOk_regByte r, rfl⟩

theorem dec (r : Reg) : Statement (.dec r) := ⟨registerByteOk_regByte r, rfl⟩

theorem push (r : Reg) : Statement (.push r) := ⟨registerByteOk_regByte r, rfl⟩

theorem pop (r : Reg) : Statement (.pop r) := ⟨registerByteOk_regByte r, rfl⟩

theorem call (r : Reg) : Statement (.call r) := ⟨registerByteOk_regByte r, rfl⟩

theorem ret : Statement .ret := ⟨rfl, rfl⟩

theorem jmp (r : Reg) : Statement (.jmp r) := ⟨registerByteOk_regByte r, rfl⟩

theorem jeq (r : Reg) : Statement (.jeq r) := ⟨registerByteOk_regByte r, rfl⟩

theorem jne (r : Reg) : Statement (.jne r) := ⟨registerByteOk_regByte r, rfl⟩

theorem iret : Statement .iret := ⟨rfl, rfl⟩

end Sys2Proof.Laws.OperandBytes
end

