-- ==== Sys2Proof/Laws/Stack.lean ====
section
/-! SUPPORT. What PUSH and POP of a register can do (spec/43_stack.md R130, R131). -/

namespace Sys2Proof.Machine

theorem pushReg_ok {s : State} (r : Reg) (h1 : 1 ≤ (s.reg regSP).toNat)
    (h2 : (s.reg regSP).toNat ≤ 244) :
    pushReg r s = .ok { s.setReg regSP (wrap8 (((s.reg regSP).toNat : Int) - 1)) with
      mem := s.mem.write ((s.reg regSP).toNat - 1)
        ((s.setReg regSP (wrap8 (((s.reg regSP).toNat : Int) - 1))).reg r) } := by
  have e : (((s.reg regSP).toNat : Int) - 1) = (((s.reg regSP).toNat - 1 : Nat) : Int) := by omega
  unfold pushReg
  dsimp only
  rw [stackCheck_ok s (by omega) (by omega)]
  simp only [bind, Except.bind]
  rw [e, memWrite_ok _ (by omega)]
  rfl

theorem pushReg_overflow {s : State} (r : Reg) (h : (s.reg regSP).toNat = 0) :
    pushReg r s = .error ⟨.stackOverflow, .sp (s.reg regSP)⟩ := by
  unfold pushReg
  dsimp only
  rw [stackCheck_overflow s (by omega)]
  rfl

theorem pushReg_underflow {s : State} (r : Reg) (h : 244 < (s.reg regSP).toNat) :
    pushReg r s = .error ⟨.stackUnderflow, .sp (s.reg regSP)⟩ := by
  unfold pushReg
  dsimp only
  rw [stackCheck_underflow s (by omega) (by omega)]
  rfl

theorem popReg_ok {s : State} (r : Reg) (h : (s.reg regSP).toNat < 244) :
    popReg r s = .ok ((s.setReg r (s.mem.read (s.reg regSP).toNat)).setReg regSP
      (wrap8 ((((s.setReg r (s.mem.read (s.reg regSP).toNat)).reg regSP).toNat : Int) + 1))) := by
  unfold popReg
  dsimp only
  rw [stackCheck_ok s (by omega) (by omega)]
  simp only [bind, Except.bind]
  rw [memRead_ok s (by omega)]

theorem popReg_underflow {s : State} (r : Reg) (h : 244 ≤ (s.reg regSP).toNat) :
    popReg r s = .error ⟨.stackUnderflow, .sp (s.reg regSP)⟩ := by
  unfold popReg
  dsimp only
  rw [stackCheck_underflow s (by omega) (by omega)]
  rfl

end Sys2Proof.Machine
end

