-- ==== Sys2Proof/Tests/Slice0.lean ====
section
/-! SUPPORT. Tests of the model, with the results of spec/95_test_vectors.md (the vector's name stands in
each docstring), the smoke tests of well-formedness, one decoding for each instruction, and for every
statement with hypotheses the states and operands that meet them (`witness_…`). -/

namespace Sys2Proof.Tests

open Sys2Proof.Machine

/-! ## Helpers -/

/-- What is said of the next state, and false where there is none. -/
def nextIs (o : Host.Outcome State Fault Refusal) (p : State → Bool) : Bool :=
  match o with
  | .next t => p t
  | .fault _ => false
  | .refused _ => false

/-- The reset state with bytes stored at `p` and `pc` there (the convention of 95_test_vectors.md). -/
def codeAt (p : Nat) (bytes : List Byte) : State :=
  { State.reset with pc := p, mem := Memory.writeBytes [] p bytes }

/-- A state with one more cell set. -/
def withCell (s : State) (a : Nat) (v : Byte) : State := { s with mem := s.mem.write a v }

/-- The reset state with one register set. -/
def withReg (r : Reg) (v : Byte) : State := State.reset.setReg r v

/-- One step with no tick. -/
def quiet (s : State) : Host.Outcome State Fault Refusal := stepWith false false s

/-- The next state is FAULTED with this kind and detail. -/
def failsWith (k : FailureKind) (d : Detail) (o : Host.Outcome State Fault Refusal) : Bool :=
  nextIs o (fun t => t.mode == .faulted && t.fault.any (fun f => f.kind == k && f.detail == d))

/-! ## Well-formedness: an ill-formed term for each check -/

theorem test_wf_none_takes_no_operand : operandsOk .n [0] = false := by decide
theorem test_wf_register_needs_its_byte : operandsOk .r [] = false := by decide
theorem test_wf_register_takes_one_byte : operandsOk .r [0, 0] = false := by decide
theorem test_wf_register_above_seven : operandsOk .r [8] = false := by decide
theorem test_wf_pair_needs_two_bytes : operandsOk .rr [7] = false := by decide
theorem test_wf_pair_first_above_seven : operandsOk .rr [8, 0] = false := by decide
theorem test_wf_pair_second_above_seven : operandsOk .rr [0, 8] = false := by decide
theorem test_wf_immediate_needs_two_bytes : operandsOk .ri [7] = false := by decide
theorem test_wf_immediate_register_above_seven : operandsOk .ri [8, 0] = false := by decide
theorem test_wf_immediate_is_any_byte : operandsOk .ri [7, 255] = true := by decide
theorem test_wf_instruction : (Instr.ldi 7 255).wellFormed = true := by decide

/-! ## Decoding: the bits of R74 and the operand bytes of R71 -/

theorem test_decode_hlt : decodeTableWord 8 0b00000001 = some .hlt := by decide
theorem test_decode_prn : decode [0b01000111, 0b00000101] = .ok (.prn 5, []) := by rfl
theorem test_decode_pra : decode [0b01001000, 0b00000111] = .ok (.pra 7, []) := by rfl
theorem test_decode_ldi :
    decode [0b10000010, 0b00000110, 0b10000001] = .ok (.ldi 6 0x81, []) := by rfl
theorem test_decode_ld :
    decode [0b10000011, 0b00000001, 0b00000010] = .ok (.ld 1 2, []) := by rfl
theorem test_decode_st :
    decode [0b10000100, 0b00000001, 0b00000010] = .ok (.st 1 2, []) := by rfl
theorem test_decode_add :
    decode [0b10100000, 0b00000001, 0b00000010] = .ok (.add 1 2, []) := by rfl
theorem test_decode_mult :
    decode [0b10100010, 0b00000001, 0b00000010] = .ok (.mult 1 2, []) := by rfl
theorem test_decode_cmp :
    decode [0b10100111, 0b00000001, 0b00000010] = .ok (.cmp 1 2, []) := by rfl
theorem test_decode_inc : decode [0b01100101, 0b00000100] = .ok (.inc 4, []) := by rfl
theorem test_decode_dec : decode [0b01100110, 0b00000100] = .ok (.dec 4, []) := by rfl
theorem test_decode_push : decode [0b01000101, 0b00000010] = .ok (.push 2, []) := by rfl
theorem test_decode_pop : decode [0b01000110, 0b00000011] = .ok (.pop 3, []) := by rfl
theorem test_decode_call : decode [0b01010000, 0b00000001] = .ok (.call 1, []) := by rfl
theorem test_decode_ret : decode [0b00010001, 0b11111111] = .ok (.ret, [0xFF]) := by rfl
theorem test_decode_jmp : decode [0b01010100, 0b00000010] = .ok (.jmp 2, []) := by rfl
theorem test_decode_jeq : decode [0b01010101, 0b00000011] = .ok (.jeq 3, []) := by rfl
theorem test_decode_jne : decode [0b01010110, 0b00000011] = .ok (.jne 3, []) := by rfl
theorem test_decode_iret : decode [0b00010011] = .ok (.iret, []) := by rfl
/-- The second byte of a table word is its bits 15..8. -/
theorem test_decode_table_word : decodeTableWord 24 0x0A0782 = some (.ldi 7 10) := by decide
/-- The operand bytes above `nbits` are zeros. -/
theorem test_decode_short_table_word : decodeTableWord 8 0xFFFF82 = some (.ldi 0 0) := by decide
/-- T62, T63 -/
theorem test_decode_illegal :
    decode [0x00, 0, 0] = .error (.illegalOpcode 0x00) ∧
    decode [0xA1, 0, 0] = .error (.illegalOpcode 0xA1) := ⟨rfl, rfl⟩

/-! ## Instructions -/

/-- T1 -/
theorem test_hlt :
    nextIs (quiet (codeAt 5 [0x01])) (fun t => t.mode == .halted && t.pc == 5) = true := by decide
/-- T2: HLT in SERVICING keeps R6. -/
theorem test_hlt_in_servicing :
    nextIs (quiet { codeAt 0 [0x01] with mode := .servicing, regs := #v[0, 0, 0, 0, 0, 0, 1, 244] })
      (fun t => t.mode == .halted && t.reg 6 == 1) = true := by decide
/-- T4 -/
theorem test_prn : nextIs (quiet (codeAt 0 [0x47, 7]))
    (fun t => t.out == [⟨.dec, 244⟩] && t.pc == 2) = true := by decide
/-- T7: `pc` goes to 256 and does not wrap. -/
theorem test_prn_at_254 : nextIs (quiet (codeAt 254 [0x47, 0]))
    (fun t => t.pc == 256 && t.mode == .running) = true := by decide
/-- T5 -/
theorem test_pra :
    nextIs (quiet { codeAt 0 [0x48, 1] with regs := #v[0, 65, 0, 0, 0, 0, 0, 244] })
      (fun t => t.out == [⟨.chr, 65⟩] && t.pc == 2) = true := by decide
/-- T11 -/
theorem test_ldi : nextIs (quiet (codeAt 0 [0x82, 7, 10]))
    (fun t => t.reg 7 == 10 && t.pc == 3) = true := by decide
/-- T12: R6 set to 1 in RUNNING does not itself enter the interrupt. -/
theorem test_ldi_status : nextIs (quiet (codeAt 0 [0x82, 6, 1]))
    (fun t => t.reg 6 == 1 && t.mode == .running) = true := by decide
/-- T15: the address is read before the register is written. -/
theorem test_ld_same_register :
    nextIs (quiet (withCell { codeAt 0 [0x83, 2, 2] with regs := #v[0, 0, 0x10, 0, 0, 0, 0, 244] }
      0x10 99)) (fun t => t.reg 2 == 99 && t.pc == 3) = true := by decide
/-- T14 -/
theorem test_ld :
    nextIs (quiet (withCell { codeAt 0 [0x83, 0, 1] with regs := #v[0, 0x10, 0, 0, 0, 0, 0, 244] }
      0x10 99)) (fun t => t.reg 0 == 99 && t.reg 1 == 0x10) = true := by decide
/-- T16: the first operand is the address. -/
theorem test_st :
    nextIs (quiet { codeAt 0 [0x84, 0, 1] with regs := #v[0xF8, 0x20, 0, 0, 0, 0, 0, 244] })
      (fun t => t.mem.read 0xF8 == 0x20 && t.mem.read 0x20 == 0) = true := by decide
/-- T16b: a store may overwrite the program. -/
theorem test_st_over_the_program :
    nextIs (quiet { codeAt 0 [0x84, 0, 1] with regs := #v[0, 0x99, 0, 0, 0, 0, 0, 244] })
      (fun t => t.mem.read 0 == 0x99 && t.ir == 0x84) = true := by decide
/-- T21 -/
theorem test_add_wraps :
    nextIs (quiet { codeAt 0 [0xA0, 0, 1] with regs := #v[200, 100, 0, 0, 0, 0, 0, 244] })
      (fun t => t.reg 0 == 44 && t.reg 1 == 100) = true := by decide
/-- T32 -/
theorem test_add_keeps_the_flags :
    nextIs (quiet { codeAt 0 [0xA0, 0, 1] with regs := #v[1, 1, 0, 0, 0, 0, 0, 244], fl := 0b100 })
      (fun t => t.reg 0 == 2 && t.fl == 0b100) = true := by decide
/-- T25 -/
theorem test_mult_wraps :
    nextIs (quiet { codeAt 0 [0xA2, 0, 1] with regs := #v[255, 255, 0, 0, 0, 0, 0, 244] })
      (fun t => t.reg 0 == 1) = true := by decide
/-- T18: unsigned. -/
theorem test_cmp_unsigned :
    nextIs (quiet { codeAt 0 [0xA7, 0, 1] with regs := #v[0x80, 0x7F, 0, 0, 0, 0, 0, 244] })
      (fun t => t.fl == 0b010) = true := by decide
/-- S5: a second CMP overwrites the flags. -/
theorem test_cmp_overwrites :
    nextIs (quiet { codeAt 0 [0xA7, 1, 0] with
      regs := #v[5, 3, 0, 0, 0, 0, 0, 244], fl := 0b010 }) (fun t => t.fl == 0b100) = true := by
  decide
/-- T28 -/
theorem test_inc_wraps :
    nextIs (quiet { codeAt 0 [0x65, 4] with regs := #v[0, 0, 0, 0, 255, 0, 0, 244] })
      (fun t => t.reg 4 == 0 && t.pc == 2) = true := by decide
/-- T29 -/
theorem test_dec_wraps : nextIs (quiet (codeAt 0 [0x66, 0]))
    (fun t => t.reg 0 == 255 && t.pc == 2) = true := by decide
/-- T34: PUSH R7 stores the decremented SP. -/
theorem test_push_sp : nextIs (quiet (codeAt 0 [0x45, 7]))
    (fun t => t.reg 7 == 243 && t.mem.read 243 == 243) = true := by decide
/-- T37 -/
theorem test_push_above_the_stack :
    failsWith .stackUnderflow (.sp 245)
      (quiet { codeAt 0 [0x45, 1] with regs := #v[0, 0, 0, 0, 0, 0, 0, 245] }) = true := by decide
/-- T39b -/
theorem test_pop_sp :
    nextIs (quiet (withCell { codeAt 0 [0x46, 7] with regs := #v[0, 0, 0, 0, 0, 0, 0, 200] }
      200 255)) (fun t => t.reg 7 == 0) = true := by decide
/-- T38 -/
theorem test_pop :
    nextIs (quiet (withCell { codeAt 0 [0x46, 3] with regs := #v[0, 0, 0, 0, 0, 0, 0, 243] }
      243 42)) (fun t => t.reg 3 == 42 && t.reg 7 == 244 && t.mem.read 243 == 42) = true := by
  decide
/-- T40a: the target is read after the push. -/
theorem test_call_sp : nextIs (quiet (codeAt 0 [0x50, 7]))
    (fun t => t.mem.read 243 == 2 && t.reg 7 == 243 && t.pc == 243) = true := by decide
/-- T40c -/
theorem test_call_at_254 :
    failsWith .addressOutOfRange (.value 256) (quiet (codeAt 254 [0x50, 1])) = true := by decide
/-- T41 -/
theorem test_ret :
    nextIs (quiet (withCell { codeAt 0 [0x11] with regs := #v[0, 0, 0, 0, 0, 0, 0, 243] } 243 7))
      (fun t => t.pc == 7 && t.reg 7 == 244) = true := by decide
/-- P6 -/
theorem test_ret_on_the_empty_stack :
    failsWith .stackUnderflow (.sp 244) (quiet (codeAt 0 [0x11])) = true := by decide
/-- T42a -/
theorem test_jmp : nextIs (quiet (codeAt 0 [0x54, 7])) (fun t => t.pc == 244) = true := by decide
/-- T43 -/
theorem test_jeq_taken :
    nextIs (quiet { codeAt 0 [0x55, 3] with regs := #v[0, 0, 0, 40, 0, 0, 0, 244], fl := 0b001 })
      (fun t => t.pc == 40) = true := by decide
/-- T47: the register is checked although the jump is not taken. -/
theorem test_jeq_bad_register :
    failsWith .addressOutOfRange (.register 9) (quiet (codeAt 0 [0x55, 9])) = true := by decide
/-- T46 -/
theorem test_jne_not_taken :
    nextIs (quiet { codeAt 0 [0x56, 3] with regs := #v[0, 0, 0, 40, 0, 0, 0, 244], fl := 0b001 })
      (fun t => t.pc == 2) = true := by decide
/-- T46a: taken before any CMP. -/
theorem test_jne_taken_at_reset :
    nextIs (quiet { codeAt 0 [0x56, 3] with regs := #v[0, 0, 0, 40, 0, 0, 0, 244] })
      (fun t => t.pc == 40) = true := by decide

/-! ## Interrupt entry and return -/

/-- The start of T50. -/
def t50 : State :=
  withCell { State.reset with pc := 9, regs := #v[1, 2, 3, 4, 5, 6, 1, 244] } 0xF8 0x20

/-- The end of T50, with an IRET at the handler's address: the start of T51. -/
def t51 : State :=
  { State.reset with
    pc := 0x20, mode := .servicing, regs := #v[1, 2, 3, 4, 5, 6, 1, 236],
    mem := [(0x20, 0x13), (236, 1), (237, 6), (238, 5), (239, 4), (240, 3), (241, 2), (242, 1),
      (243, 9), (248, 0x20)] }

/-- T50 -/
theorem test_interrupt_entry :
    nextIs (quiet t50) (fun t => t.regs == #v[1, 2, 3, 4, 5, 6, 1, 236] && t.pc == 0x20 &&
      t.mode == .servicing && t.mem == [(236, 1), (237, 6), (238, 5), (239, 4), (240, 3),
        (241, 2), (242, 1), (243, 9), (248, 0x20)]) = true := by decide
/-- T51 -/
theorem test_iret :
    nextIs (quiet t51) (fun t => t.regs == #v[1, 2, 3, 4, 5, 6, 0, 244] && t.pc == 9 &&
      t.mode == .running) = true := by decide
/-- T52 -/
theorem test_iret_underflow :
    failsWith .stackUnderflow (.sp 237)
      (quiet { codeAt 0 [0x13] with regs := #v[0, 0, 0, 0, 0, 0, 0, 237] }) = true := by decide
/-- T54 -/
theorem test_interrupt_entry_overflow :
    failsWith .stackOverflow (.sp 7)
      (quiet { State.reset with regs := #v[0, 0, 0, 0, 0, 0, 1, 7] }) = true := by decide
/-- T58 -/
theorem test_tick : nextIs (stepWith true true (codeAt 0 [0x82, 0, 1]))
    (fun t => t.reg 0 == 1 && t.pc == 3 && t.reg 6 == 1) = true := by decide
/-- T59 -/
theorem test_tick_disabled : nextIs (stepWith false true (codeAt 0 [0x82, 0, 1]))
    (fun t => t.reg 0 == 1 && t.reg 6 == 0) = true := by decide
/-- T59a -/
theorem test_no_tick_after_hlt : nextIs (stepWith true true (codeAt 0 [0x01]))
    (fun t => t.mode == .halted && t.reg 6 == 0) = true := by decide
/-- T59b -/
theorem test_no_tick_in_servicing :
    nextIs (stepWith true true { codeAt 0 [0x82, 6, 0] with
      mode := .servicing, regs := #v[0, 0, 0, 0, 0, 0, 1, 244] })
      (fun t => t.mode == .running && t.reg 6 == 0) = true := by decide

/-! ## Fetch -/

/-- T60 -/
theorem test_fetch_at_256 :
    failsWith .addressOutOfRange (.memory 256) (quiet { State.reset with pc := 256 }) = true := by
  decide
/-- T61 -/
theorem test_fetch_operand_at_256 :
    failsWith .addressOutOfRange (.memory 256) (quiet (codeAt 255 [0x82])) = true := by decide
/-- T64: the opcode is checked before the operands are fetched. -/
theorem test_fetch_illegal_at_255 :
    failsWith .illegalInstruction (.opcode 0) (quiet { State.reset with pc := 255 }) = true := by
  decide
/-- T65: the operands are fetched before the registers are checked. -/
theorem test_fetch_before_register_check :
    failsWith .addressOutOfRange (.memory 256) (quiet (codeAt 254 [0x82, 9])) = true := by decide
/-- The step of `step` itself on a stored table word: HLT samples no tick. -/
theorem test_step_with_fetch_word :
    nextIs (step (State.reset.withFetchWord 8 0x01)) (fun t => t.mode == .halted) = true := by
  decide
/-- The next `pc` of `step` whatever the tick: PRN R0. -/
theorem test_step_advances :
    nextIs (step (State.reset.withFetchWord 16 0x0047)) (fun t => t.pc == 2) = true := by decide

/-! ## Witnesses: encoding -/

theorem witness_DecodedBytesAreTheEncoding :
    decode [0xA0, 7, 0, 0xFF] = .ok (.add 7 0, [0xFF]) := by rfl

theorem witness_UnlistedOpcodesAreIllegal :
    decode [0x00] = .error (.illegalOpcode 0x00) ∧ (0x00 : Byte) ∉ listedOpcodes := by
  exact ⟨rfl, by decide⟩

theorem witness_RegisterBytesAboveSevenAreRejected :
    7 < (8 : Byte).toNat ∧ 7 < (255 : Byte).toNat ∧ (Instr.prn 0).format = .r ∧
    (Instr.ldi 0 0).format = .ri ∧ (Instr.add 0 0).format = .rr ∧ (7 : Byte).toNat ≤ 7 := by
  decide

theorem witness_LengthIsFixedByTheOpcode :
    decode (0x82 :: [7, 255]) = .ok (.ldi 7 255, []) ∧
    decode (0x82 :: [0, 0, 9]) = .ok (.ldi 0 0, [9]) := ⟨rfl, rfl⟩

/-! ## Witnesses: the step -/

/-- LDI R7,255 in the last three cells. -/
def lastCells : State := codeAt 253 [0x82, 7, 255]

theorem witness_StepRunsDecodedInstruction :
    (fetch lastCells = .ok (.ldi 7 255, []) ∧ lastCells.mode = .running ∧
      lastCells.reg regIS ≠ 1) ∧
    (fetch (lastCells.setReg regIS 2) = .ok (.ldi 7 255, []) ∧
      (lastCells.setReg regIS 2).reg regIS ≠ 1) ∧
    (fetch { lastCells with mode := .servicing } = .ok (.ldi 7 255, []) ∧
      { lastCells with mode := .servicing }.mode = .servicing) :=
  ⟨⟨rfl, by decide, by decide⟩, ⟨rfl, by decide⟩, ⟨rfl, by decide⟩⟩

theorem witness_FetchReadsTheBytesAtPc : StandsAtPc lastCells (.ldi 7 255) := by
  unfold StandsAtPc; decide

theorem runs_from (s : State) (h : s.mode = .running) (h' : s.reg regIS ≠ 1) :
    ExecutesInstruction s := .inr ⟨h, h'⟩

theorem witness_FetchFailuresInOrder_opcode_fetch :
    ExecutesInstruction { State.reset with pc := 256 } ∧ 255 < { State.reset with pc := 256 }.pc ∧
    ExecutesInstruction { State.reset with pc := 256, mode := .servicing } :=
  ⟨runs_from _ rfl (by decide), by decide, .inl rfl⟩

theorem witness_FetchFailuresInOrder_illegal :
    ExecutesInstruction { State.reset with pc := 255 } ∧ { State.reset with pc := 255 }.pc ≤ 255 ∧
    { State.reset with pc := 255 }.mem.read 255 ∉ listedOpcodes :=
  ⟨runs_from _ rfl (by decide), by decide, by decide⟩

theorem witness_FetchFailuresInOrder_operand_fetch :
    ExecutesInstruction (codeAt 254 [0x82, 9]) ∧ (codeAt 254 [0x82, 9]).pc ≤ 255 ∧
    (codeAt 254 [0x82, 9]).mem.read (codeAt 254 [0x82, 9]).pc = opcodeOf (.ldi 0 0) ∧
    255 < (codeAt 254 [0x82, 9]).pc + (Instr.ldi 0 0).format.operandCount :=
  ⟨runs_from _ rfl (by decide), by decide, by decide, by decide⟩

theorem witness_FetchFailuresInOrder_first_register :
    ExecutesInstruction (codeAt 253 [0x82, 8, 0]) ∧
    (codeAt 253 [0x82, 8, 0]).mem.read 253 = opcodeOf (.ldi 0 0) ∧
    (codeAt 253 [0x82, 8, 0]).pc + (Instr.ldi 0 0).format.operandCount ≤ 255 ∧
    (Instr.ldi 0 0).format ≠ .n ∧ 7 < ((codeAt 253 [0x82, 8, 0]).mem.read 254).toNat :=
  ⟨runs_from _ rfl (by decide), by decide, by decide, by decide, by decide⟩

theorem witness_FetchFailuresInOrder_second_register :
    ExecutesInstruction (codeAt 253 [0xA0, 7, 8]) ∧
    (codeAt 253 [0xA0, 7, 8]).mem.read 253 = opcodeOf (.add 0 0) ∧
    (codeAt 253 [0xA0, 7, 8]).pc + (Instr.add 0 0).format.operandCount ≤ 255 ∧
    (Instr.add 0 0).format = .rr ∧ ((codeAt 253 [0xA0, 7, 8]).mem.read 254).toNat ≤ 7 ∧
    7 < ((codeAt 253 [0xA0, 7, 8]).mem.read 255).toNat :=
  ⟨runs_from _ rfl (by decide), by decide, by decide, by decide, by decide, by decide⟩

theorem witness_HaltedAndFaultedHaveNoStep :
    { State.reset with mode := .halted }.mode = .halted ∧
    { State.reset with mode := .faulted }.mode = .faulted := by decide

theorem witness_InterruptIsCheckedBeforeTheFetch :
    (t50.mode = .running ∧ t50.reg regIS = 1) ∧
    ((withReg regIS 0).mode = .running ∧ (withReg regIS 0).reg regIS ≠ 1) ∧
    ((withReg regIS 2).mode = .running ∧ (withReg regIS 2).reg regIS ≠ 1) ∧
    t51.mode = .servicing := by decide

theorem witness_TickSetsTheInterruptStatus_running :
    ∃ u, executeOne (codeAt 0 [0x82, 6, 255]) = .next u ∧ u.mode = .running ∧
      u.reg regIS = 255 ∧ (codeAt 0 [0x82, 6, 255]).mode = .running ∧
      (codeAt 0 [0x82, 6, 255]).reg regIS ≠ 1 :=
  ⟨_, rfl, by decide, by decide, by decide, by decide⟩

theorem witness_TickSetsTheInterruptStatus_stopped :
    (∃ u, executeOne (codeAt 0 [0x01]) = .next u ∧ u.mode ≠ .running) ∧
    (∃ u, executeOne (codeAt 0 [0x00]) = .next u ∧ u.mode ≠ .running) :=
  ⟨⟨_, rfl, by decide⟩, ⟨_, rfl, by decide⟩⟩

theorem witness_PendingInterruptIsTakenNext_tick :
    ∃ t, stepWith true true (codeAt 0 [0x82, 0, 1]) = .next t ∧ t.mode = .running ∧
      (codeAt 0 [0x82, 0, 1]).mode = .running ∧ (codeAt 0 [0x82, 0, 1]).reg regIS ≠ 1 :=
  ⟨_, rfl, by decide, by decide, by decide⟩

theorem witness_PendingInterruptIsTakenNext_written :
    ∃ t, stepWith true false (codeAt 0 [0x82, 6, 1]) = .next t ∧ t.mode = .running ∧
      t.reg regIS = 1 := ⟨_, rfl, by decide, by decide⟩

/-- SERVICING with R6 = 1, at an LDI of R6. -/
def handlerLdi (v : Byte) : State :=
  { codeAt 0 [0x82, 6, v] with mode := .servicing, regs := #v[0, 0, 0, 0, 0, 0, 1, 236] }

theorem witness_InnerLoopEndsWhenStatusIsNotOne :
    (∃ u, executeOne (handlerLdi 1) = .next u ∧ u.mode = .servicing ∧ u.reg regIS = 1) ∧
    (∃ u, executeOne (handlerLdi 0) = .next u ∧ u.mode = .servicing ∧ u.reg regIS ≠ 1) ∧
    (∃ u, executeOne (handlerLdi 2) = .next u ∧ u.mode = .servicing ∧ u.reg regIS ≠ 1) ∧
    (∃ u, executeOne { codeAt 0 [0x01] with mode := .servicing } = .next u ∧
      u.mode ≠ .servicing) :=
  ⟨⟨_, rfl, by decide, by decide⟩, ⟨_, rfl, by decide, by decide⟩,
    ⟨_, rfl, by decide, by decide⟩, ⟨_, rfl, by decide⟩⟩

theorem witness_InterruptEntrySavesPcAndRegisters :
    (8 ≤ ((withReg regSP 8).reg regSP).toNat ∧ ((withReg regSP 8).reg regSP).toNat ≤ 244) ∧
    (8 ≤ ((withReg regSP 244).reg regSP).toNat ∧ ((withReg regSP 244).reg regSP).toNat ≤ 244) ∧
    { withReg regSP 8 with pc := 255 }.pc ≤ 255 := by decide

theorem witness_InterruptEntryFailures :
    ((withReg regSP 7).reg regSP).toNat < 8 ∧ 244 < ((withReg regSP 245).reg regSP).toNat ∧
    (8 ≤ ((withReg regSP 8).reg regSP).toNat ∧ ((withReg regSP 244).reg regSP).toNat ≤ 244 ∧
      255 < { withReg regSP 8 with pc := 256 }.pc) := by decide

/-! ## Witnesses: the instructions -/

theorem witness_LdiWritesTheImmediate :
    (withReg 0 0).mode = .running ∧ regIS = 6 ∧
    (handlerLdi 0).mode = .servicing ∧ (0 : Byte) ≠ 1 ∧ (2 : Byte) ≠ 1 := by decide

/-- R0 and R1 set. -/
def pair (x y : Byte) : State := (State.reset.setReg 0 x).setReg 1 y

theorem witness_CmpWritesOneFlag :
    ((pair 127 128).reg 0).toNat < ((pair 127 128).reg 1).toNat ∧
    ((pair 128 127).reg 0).toNat > ((pair 128 127).reg 1).toNat ∧
    ((pair 255 255).reg 0).toNat = ((pair 255 255).reg 1).toNat := by decide

theorem witness_PushDecrementsThenStores :
    (1 ≤ ((withReg regSP 1).reg regSP).toNat ∧ ((withReg regSP 1).reg regSP).toNat ≤ 244) ∧
    (1 ≤ ((withReg regSP 244).reg regSP).toNat ∧ ((withReg regSP 244).reg regSP).toNat ≤ 244) ∧
    ((withReg regSP 0).reg regSP).toNat = 0 ∧ 244 < ((withReg regSP 245).reg regSP).toNat := by
  decide

theorem witness_PopLoadsThenIncrements :
    ((withReg regSP 243).reg regSP).toNat < 244 ∧ ((withReg regSP 0).reg regSP).toNat < 244 ∧
    244 ≤ ((withReg regSP 244).reg regSP).toNat ∧ 244 ≤ ((withReg regSP 255).reg regSP).toNat ∧
    (6 : Reg) ≠ regSP ∧ (7 : Reg) = regSP := by decide

theorem witness_CallPushesTheReturnAddress :
    (1 ≤ ((withReg regSP 1).reg regSP).toNat ∧ ((withReg regSP 244).reg regSP).toNat ≤ 244 ∧
      { withReg regSP 1 with pc := 253 }.pc + 2 ≤ 255) ∧
    ((withReg regSP 0).reg regSP).toNat = 0 ∧ 244 < ((withReg regSP 245).reg regSP).toNat ∧
    (1 ≤ ((withReg regSP 244).reg regSP).toNat ∧ ((withReg regSP 244).reg regSP).toNat ≤ 244 ∧
      255 < { withReg regSP 244 with pc := 254 }.pc + 2) := by decide

theorem witness_RetPopsTheProgramCounter :
    ((withReg regSP 243).reg regSP).toNat < 244 ∧
    244 ≤ ((withReg regSP 244).reg regSP).toNat := by decide

/-- SERVICING, at a JMP R2 that jumps to itself. -/
def selfJump : State :=
  { codeAt 0 [0x54, 2] with mode := .servicing, regs := #v[0, 0, 0, 0, 0, 0, 1, 244] }

/-- JMP R2 at 0 with R2 = 0 jumps to itself. -/
theorem witness_JmpGoesToTheRegister :
    fetch (codeAt 0 [0x54, 2]) = .ok (.jmp 2, [0]) ∧
    ((codeAt 0 [0x54, 2]).reg 2).toNat = (codeAt 0 [0x54, 2]).pc ∧
    (codeAt 0 [0x54, 2]).mode = .running ∧ (codeAt 0 [0x54, 2]).reg regIS ≠ 1 ∧
    fetch selfJump = .ok (.jmp 2, [0]) ∧ (selfJump.reg 2).toNat = selfJump.pc ∧
    selfJump.mode = .servicing ∧ selfJump.reg regIS = 1 :=
  ⟨rfl, by decide, by decide, by decide, rfl, by decide, by decide, by decide⟩

theorem witness_JeqJumpsWhenEqual :
    { State.reset with fl := 0b001 }.fl = 0b001 ∧ State.reset.fl ≠ 0b001 ∧
    { State.reset with fl := 0b010 }.fl ≠ 0b001 ∧ 7 < (8 : Byte).toNat := by decide

theorem witness_JneJumpsWhenNotEqual :
    State.reset.fl ≠ 0b001 ∧ { State.reset with fl := 0b100 }.fl ≠ 0b001 ∧
    { State.reset with fl := 0b001 }.fl = 0b001 ∧ 7 < (8 : Byte).toNat := by decide

theorem witness_IretRestoresAndClearsStatus :
    ((withReg regSP 236).reg regSP).toNat + 7 < 244 ∧
    ((withReg regSP 0).reg regSP).toNat + 7 < 244 ∧
    244 ≤ ((withReg regSP 237).reg regSP).toNat + 7 := by decide

/-! ## Witnesses: rules of the whole machine -/

theorem witness_InstructionWritesOnlyItsOwn :
    (∃ t, exec .iret t51 = .next t) ∧ (∃ t, exec .ret State.reset = .next t) :=
  ⟨⟨_, rfl⟩, ⟨_, rfl⟩⟩

theorem witness_RegistersChangeOnlyByTheirWriters :
    (∃ t, quiet t50 = .next t ∧ t.reg regSP ≠ t50.reg regSP) ∧
    (∃ t, stepWith true true (codeAt 0 [0x82, 0, 1]) = .next t ∧
      t.reg regIS ≠ (codeAt 0 [0x82, 0, 1]).reg regIS) ∧
    (∃ t, quiet (codeAt 0 [0x82, 0, 1]) = .next t ∧ t.reg 0 ≠ (codeAt 0 [0x82, 0, 1]).reg 0) :=
  ⟨⟨_, rfl, by decide⟩, ⟨_, rfl, by decide⟩, ⟨_, rfl, by decide⟩⟩

theorem witness_MemoryChangesOnlyByStores :
    (∃ t, quiet t50 = .next t ∧ t.mem.read 243 ≠ t50.mem.read 243) ∧
    (∃ t, quiet (codeAt 0 [0x45, 7]) = .next t ∧
      t.mem.read 243 ≠ (codeAt 0 [0x45, 7]).mem.read 243) :=
  ⟨⟨_, rfl, by decide⟩, ⟨_, rfl, by decide⟩⟩

theorem witness_FlagsWrittenByCmpReadByJumps :
    (∃ t, quiet (codeAt 0 [0xA7, 0, 0]) = .next t ∧ t.fl ≠ (codeAt 0 [0xA7, 0, 0]).fl) ∧
    (∀ a b, Instr.iret ≠ .cmp a b) ∧ (∀ r, Instr.iret ≠ .jeq r) ∧ (∀ r, Instr.iret ≠ .jne r) :=
  ⟨⟨_, rfl, by decide⟩, nofun, nofun, nofun⟩

theorem witness_TraceGrowsOnlyByPrnAndPra :
    ((∃ t, quiet t50 = .next t) ∧ EntersInterrupt t50) ∧
    ((∃ t, quiet (codeAt 0 [0x48, 1]) = .next t) ∧ ExecutesInstruction (codeAt 0 [0x48, 1]) ∧
      ∃ rest, fetch (codeAt 0 [0x48, 1]) = .ok (.pra 1, rest)) ∧
    ((∃ t, quiet State.reset = .next t) ∧ ExecutesInstruction State.reset ∧
      fetch State.reset = .error (.illegalOpcode 0)) :=
  ⟨⟨⟨_, rfl⟩, rfl, by decide⟩, ⟨⟨_, rfl⟩, runs_from _ rfl (by decide), _, rfl⟩,
    ⟨⟨_, rfl⟩, runs_from _ rfl (by decide), rfl⟩⟩

theorem witness_IrHoldsTheFetchedOpcode :
    ExecutesInstruction (codeAt 0 [0x47, 0]) ∧
    ∃ t, quiet (codeAt 0 [0x47, 0]) = .next t ∧ t.mode ≠ .faulted :=
  ⟨runs_from _ rfl (by decide), _, rfl, by decide⟩

theorem witness_FailingStepKeepsTheState :
    (∃ t, quiet (t50.setReg regSP 7) = .next t ∧ t.mode = .faulted ∧
      EntersInterrupt (t50.setReg regSP 7)) ∧
    (∃ t, quiet { State.reset with pc := 256 } = .next t ∧ t.mode = .faulted ∧
      255 < { State.reset with pc := 256 }.pc) ∧
    (∃ t, quiet { State.reset with pc := 255 } = .next t ∧ t.mode = .faulted ∧
      ExecutesInstruction { State.reset with pc := 255 } ∧
      { State.reset with pc := 255 }.pc ≤ 255) :=
  ⟨⟨_, rfl, rfl, rfl, by decide⟩, ⟨_, rfl, rfl, by decide⟩,
    ⟨_, rfl, rfl, runs_from _ rfl (by decide), by decide⟩⟩

theorem witness_HaltedOnlyByHlt : ∃ t, quiet (codeAt 5 [0x01]) = .next t ∧ t.mode = .halted :=
  ⟨_, rfl, rfl⟩

theorem witness_ServicingOnlyByInterruptEntry :
    (∃ t, quiet t50 = .next t ∧ t.mode = .servicing) ∧
    (∃ t, quiet (handlerLdi 1) = .next t ∧ t.mode = .servicing) :=
  ⟨⟨_, rfl, rfl⟩, ⟨_, rfl, rfl⟩⟩

/-! ## Witnesses: instruction pairs -/

theorem witness_PushThenPopRoundTrip :
    (1 ≤ ((withReg regSP 1).reg regSP).toNat ∧ ((withReg regSP 244).reg regSP).toNat ≤ 244) ∧
    (0 : Reg) ≠ regSP ∧ (6 : Reg) ≠ regSP := by decide

theorem witness_CallThenRetResumes :
    1 ≤ (State.reset.reg regSP).toNat ∧ (State.reset.reg regSP).toNat ≤ 244 ∧
    { State.reset with pc := 253 }.pc ≤ 253 ∧
    ∃ t, exec (.call 1) { State.reset with pc := 253 } = .next t ∧
      t.mem.read (t.reg regSP).toNat = 255 := by
  exact ⟨by decide, by decide, by decide, _, rfl, by decide⟩

/-- From the empty stack, CALL R1 at address 0 with R1 = 0, over and over. -/
def callChain : Nat → State
  | 0 => State.reset
  | k + 1 =>
    match exec (.call 1) (callChain k) with
    | .next t => t
    | .fault _ => callChain k
    | .refused _ => callChain k

theorem callChain_spec (k : Nat) (hk : k ≤ 244) :
    (callChain k).pc = 0 ∧ (callChain k).reg 1 = 0 ∧
      ((callChain k).reg regSP).toNat = 244 - k := by
  induction k with
  | zero => decide
  | succ k ih =>
    obtain ⟨h1, h2, h3⟩ := ih (by omega)
    have hp := stackPush_ok (s := callChain k) (v := 2) (by omega) (by omega) (by omega)
    have h4 := toNat_wrap8_pred (b := (callChain k).reg regSP) (by omega)
    simp only [callChain, exec, execCall, h1, hp, bind, Except.bind, conclude_ok]
    have h5 : ((callChain k).setReg regSP
        (wrap8 ((((callChain k).reg regSP).toNat : Int) - 1))).reg 1 = 0 := by
      rw [State.reg_setReg_ne _ _ (by decide)]; exact h2
    refine ⟨congrArg BitVec.toNat h5, h5, ?_⟩
    change (State.reg (State.setReg (callChain k) regSP
      (wrap8 ((((callChain k).reg regSP).toNat : Int) - 1))) regSP).toNat = 244 - (k + 1)
    rw [State.reg_setReg_self]
    omega

theorem callChain_step (k : Nat) (hk : k < 244) :
    exec (.call 1) (callChain k) = .next (callChain (k + 1)) := by
  obtain ⟨h1, -, h3⟩ := callChain_spec k (by omega)
  have hp := stackPush_ok (s := callChain k) (v := 2) (by omega) (by omega) (by omega)
  simp only [callChain, exec, execCall, h1, hp, bind, Except.bind, conclude_ok]

theorem witness_NestedCallsReachDepth244 :
    (callChain 0).reg regSP = 244 ∧ ∀ k, k < 244 →
      (callChain k).pc ≤ 253 ∧ exec (.call 1) (callChain k) = .next (callChain (k + 1)) :=
  ⟨by decide, fun k hk =>
    ⟨by rw [(callChain_spec k (by omega)).1]; omega, callChain_step k hk⟩⟩

/-- T50 and T51 -/
theorem witness_InterruptEntryThenIretResumes :
    EntersInterrupt t50 ∧ ∃ t, quiet t50 = .next t ∧ t.mode = .servicing ∧
      t51.mode = .servicing ∧ t51.reg regSP = t.reg regSP ∧
      (∀ a ∈ entryCells t50, t51.mem.read a = t.mem.read a) ∧
      ∃ rest, fetch t51 = .ok (.iret, rest) :=
  ⟨⟨rfl, by decide⟩, _, rfl, rfl, rfl, by decide, by decide, _, rfl⟩

/-! ## Witnesses: memory, reset -/

theorem witness_MemReadChecksTheRange :
    ((-1 : Int) < 0 ∧ (256 : Int) > 255) ∧ ((0 : Int) = (0 : Nat) ∧ (255 : Int) = (255 : Nat)) := by
  decide

theorem witness_MemWriteChangesOneCell :
    ((-1 : Int) < 0 ∧ (256 : Int) > 255) ∧
    ((0 : Int) = (0 : Nat) ∧ 0 ≤ 255) ∧ ((255 : Int) = (255 : Nat) ∧ 255 ≤ 255) := by decide

theorem witness_CanonicalMemoriesReadingAlikeAreEqual :
    Memory.wf [(0, 1), (255, 255)] = true ∧
    ∀ a, a < 256 → Memory.read [(0, 1), (255, 255)] a = Memory.read [(0, 1), (255, 255)] a :=
  ⟨by decide, fun _ _ => rfl⟩

theorem witness_StoreIsSeenByTheNextFetch :
    { State.reset with pc := 250 }.pc + 3 + 2 ≤ 255 ∧ (2 : Nat) < 3 := by decide

theorem witness_ImageIsLoadedFromZero :
    ((List.replicate 256 255).length ≤ 256 ∧ ∀ b ∈ List.replicate 256 255, b < 256) ∧
    256 < (List.replicate 257 0).length ∧ (∃ b ∈ [256], 255 < b) := by
  refine ⟨⟨by rw [List.length_replicate], fun b hb => ?_⟩, ?_, by decide⟩
  case refine_2 => rw [List.length_replicate]; omega
  rw [List.eq_of_mem_replicate hb]; omega

/-- P6's image -/
theorem witness_ImageResetSatisfiesTheInvariant :
    ∃ s, State.resetWithImage [0x11] = .ok s := ⟨_, rfl⟩

theorem test_reset_memory_is_canonical : State.reset.mem.wf = true := by decide

theorem inv_codeAt_zero : Inv (codeAt 0 [0x01]) :=
  ⟨by decide, by decide, by decide, by decide, by decide⟩

theorem witness_EveryStepKeepsTheInvariant :
    Inv (codeAt 0 [0x01]) ∧ (∃ t, quiet (codeAt 0 [0x01]) = .next t) ∧
    (∃ t, step (codeAt 0 [0x01]) = .next t) :=
  ⟨inv_codeAt_zero, ⟨_, rfl⟩, ⟨_, rfl⟩⟩

end Sys2Proof.Tests
end

/-! # Proofs: the flags register and the trace

The operations over registers, stack and memory act on three fields of the state and neither read
nor write the others.  That one fact, `ActsOnCore`, gives what the meanings leave unchanged and that
they do not depend on `FL` (R26). -/

namespace Sys2Proof.Machine

/-! ## The fields the shared operations act on -/

/-- The register file, `pc` and memory of `s`, with every other field of `u`. -/
def State.onto (s u : State) : State := { u with regs := s.regs, pc := s.pc, mem := s.mem }

@[simp] theorem State.onto_reg (s u : State) (r : Reg) : (s.onto u).reg r = s.reg r := rfl
@[simp] theorem State.onto_pc (s u : State) : (s.onto u).pc = s.pc := rfl
@[simp] theorem State.onto_self (s : State) : s.onto s = s := rfl

@[simp] theorem State.onto_setReg (s u : State) (r : Reg) (v : Byte) :
    (s.onto u).setReg r v = (s.setReg r v).onto u := rfl

@[simp] theorem State.onto_setPc (s u : State) (n : Nat) :
    (s.onto u).setPc n = (s.setPc n).onto u := rfl

/-- The operation neither reads nor writes a field beside the registers, `pc` and memory. -/
def ActsOnCore (op : State → Except Failure State) : Prop :=
  ∀ s u, op (s.onto u) = (fun t => t.onto u) <$> op s

/-- What such an operation leaves unchanged. -/
theorem ActsOnCore.frame {op : State → Except Failure State} (h : ActsOnCore op) {s t : State}
    (ht : op s = .ok t) : t = t.onto s := by
  have hs := h s s
  rw [State.onto_self, ht] at hs
  exact Except.ok.inj hs

/-- Such an operation does the same whatever `FL` holds. -/
theorem ActsOnCore.setFl {op : State → Except Failure State} (h : ActsOnCore op) (s : State)
    (v : BitVec 3) : op (s.setFl v) = (fun t => t.setFl v) <$> op s := by
  refine (h s (s.setFl v)).trans ?_
  cases hs : op s with
  | error f => rfl
  | ok t => exact congrArg (fun w => Except.ok (w.setFl v)) (h.frame hs).symm

/-! ## Memory and stack -/

@[simp] theorem memRead_onto (s u : State) (a : Int) : memRead (s.onto u) a = memRead s a := rfl

@[simp] theorem stackCheck_onto (s u : State) (lo hi : Int) :
    stackCheck (s.onto u) lo hi = stackCheck s lo hi := rfl

@[simp] theorem memWrite_onto (s u : State) (a : Int) (v : Byte) :
    memWrite (s.onto u) a v = (fun t => t.onto u) <$> memWrite s a v := by
  unfold memWrite
  split <;> rfl

@[simp] theorem stackPush_onto (s u : State) (n : Nat) :
    stackPush n (s.onto u) = (fun t => t.onto u) <$> stackPush n s := by
  simp only [stackPush, State.onto_reg, stackCheck_onto, State.onto_setReg, memWrite_onto, map_bind]
  refine bind_congr fun _ => ?_
  split <;> rfl

@[simp] theorem stackPop_onto (s u : State) :
    stackPop (s.onto u) = (fun p => (p.1, p.2.onto u)) <$> stackPop s := by
  simp only [stackPop, State.onto_reg, stackCheck_onto, memRead_onto, State.onto_setReg, map_bind]
  rfl

theorem pushRegs_actsOnCore (rs : List Reg) : ActsOnCore (pushRegs rs) := by
  intro s u
  induction rs generalizing s with
  | nil => rfl
  | cons r rest ih =>
    simp only [pushRegs, State.onto_reg, stackPush_onto, bind_map_left, map_bind, ih]

theorem popRegs_actsOnCore (rs : List Reg) : ActsOnCore (popRegs rs) := by
  intro s u
  induction rs generalizing s with
  | nil => rfl
  | cons r rest ih =>
    simp only [popRegs, stackPop_onto, State.onto_setReg, bind_map_left, map_bind, ih]

theorem pushReg_actsOnCore (r : Reg) : ActsOnCore (pushReg r) := by
  intro s u
  simp only [pushReg, State.onto_reg, stackCheck_onto, State.onto_setReg, memWrite_onto, map_bind]

theorem popReg_actsOnCore (r : Reg) : ActsOnCore (popReg r) := by
  intro s u
  simp only [popReg, State.onto_reg, stackCheck_onto, memRead_onto, State.onto_setReg, map_bind]
  rfl

/-! ## The interrupt -/

theorem returnFromInterrupt_actsOnCore : ActsOnCore returnFromInterrupt := by
  intro s u
  simp only [returnFromInterrupt, State.onto_reg, stackCheck_onto, popRegs_actsOnCore _ s u,
    stackPop_onto, State.onto_setPc, State.onto_setReg, bind_map_left, map_bind]
  rfl

/-- The entry writes the mode too (R184), and nothing else beside the registers, `pc` and memory. -/
theorem enterInterrupt_onto (s u : State) :
    enterInterrupt (s.onto u) =
      (fun t => t.onto { u with mode := .servicing }) <$> enterInterrupt s := by
  simp only [enterInterrupt, State.onto_reg, stackCheck_onto, map_bind]
  refine bind_congr fun _ => ?_
  by_cases hpc : s.pc > 255
  · rw [if_pos hpc, if_pos (show (s.onto u).pc > 255 from hpc)]
    rfl
  · rw [if_neg hpc, if_neg (show ¬ (s.onto u).pc > 255 from hpc)]
    simp only [State.onto_pc, stackPush_onto, pushRegs_actsOnCore _ _ u, memRead_onto, bind_map_left,
      map_bind]
    rfl

theorem enterInterrupt_frame {s t : State} (h : enterInterrupt s = .ok t) :
    t = t.onto { s with mode := .servicing } := by
  have hs := enterInterrupt_onto s s
  rw [State.onto_self, h] at hs
  exact Except.ok.inj hs

/-- The interrupt entry keeps `FL` and the trace, whether or not it fails. -/
theorem interruptEntry_keeps {s t : State} (h : interruptEntry s = .next t) :
    t.fl = s.fl ∧ t.out = s.out := by
  obtain hok | ⟨f, -, rfl⟩ := interruptEntry_inv h
  · rw [enterInterrupt_frame hok]
    exact ⟨rfl, rfl⟩
  · exact ⟨rfl, rfl⟩

/-- The interrupt entry does the same whatever `FL` holds. -/
theorem interruptEntry_setFl (v : BitVec 3) (s : State) :
    interruptEntry (s.setFl v) = onNext (fun t => t.setFl v) (interruptEntry s) := by
  have hv : enterInterrupt (s.setFl v) = _ := enterInterrupt_onto s (s.setFl v)
  unfold interruptEntry
  rw [hv]
  cases hs : enterInterrupt s with
  | error f => rfl
  | ok t =>
    exact congrArg (fun w : State => Host.Outcome.next (w.setFl v)) (enterInterrupt_frame hs).symm

/-! ## The instructions -/

/-- The instructions that act on no field beside the registers, `pc` and memory: HLT writes the mode,
PRN and PRA the trace, CMP writes `FL` and JEQ and JNE read it. -/
def actsOnCoreOnly : Instr → Bool
  | .hlt => false
  | .prn _ => false
  | .pra _ => false
  | .cmp _ _ => false
  | .jeq _ => false
  | .jne _ => false
  | _ => true

/-- Such an instruction is an operation on the core, followed by the end all instructions share. -/
theorem exec_eq_conclude_of_actsOnCoreOnly {i : Instr} (h : actsOnCoreOnly i = true) :
    ∃ body, (∀ s, exec i s = conclude (opcodeOf i) s (body s)) ∧ ActsOnCore body := by
  cases i with
  | hlt | prn | pra | cmp | jeq | jne => cases h
  | ldi r imm => exact ⟨fun s => .ok ((s.setReg r imm).advance 3), fun _ => rfl, fun _ _ => rfl⟩
  | add a b =>
    exact ⟨fun s => .ok (aluWrite a ((s.reg a).toNat + (s.reg b).toNat) 3 s), fun _ => rfl,
      fun _ _ => rfl⟩
  | mult a b =>
    exact ⟨fun s => .ok (aluWrite a ((s.reg a).toNat * (s.reg b).toNat) 3 s), fun _ => rfl,
      fun _ _ => rfl⟩
  | inc r =>
    exact ⟨fun s => .ok (aluWrite r ((s.reg r).toNat + 1) 2 s), fun _ => rfl, fun _ _ => rfl⟩
  | dec r =>
    exact ⟨fun s => .ok (aluWrite r ((s.reg r).toNat - 1) 2 s), fun _ => rfl, fun _ _ => rfl⟩
  | jmp r => exact ⟨fun s => .ok (s.setPc (s.targetIn r)), fun _ => rfl, fun _ _ => rfl⟩
  | ld a b =>
    refine ⟨_, fun _ => rfl, fun s u => ?_⟩
    simp only [loadVia_ok]
    rfl
  | st a b =>
    refine ⟨_, fun _ => rfl, fun s u => ?_⟩
    simp only [storeVia_ok]
    rfl
  | push r =>
    refine ⟨_, fun _ => rfl, fun s u => ?_⟩
    simp only [pushReg_actsOnCore r s u, bind_map_left, map_bind]
    rfl
  | pop r =>
    refine ⟨_, fun _ => rfl, fun s u => ?_⟩
    simp only [popReg_actsOnCore r s u, bind_map_left, map_bind]
    rfl
  | call r =>
    refine ⟨_, fun _ => rfl, fun s u => ?_⟩
    simp only [State.onto_pc, stackPush_onto, bind_map_left, map_bind]
    rfl
  | ret =>
    refine ⟨_, fun _ => rfl, fun s u => ?_⟩
    simp only [stackPop_onto, bind_map_left, map_bind]
    rfl
  | iret => exact ⟨_, fun _ => rfl, returnFromInterrupt_actsOnCore⟩

/-- Such an instruction keeps `FL` and the trace, whether or not it fails. -/
theorem exec_keeps_of_actsOnCoreOnly {i : Instr} {s t : State} (hi : actsOnCoreOnly i = true)
    (h : exec i s = .next t) : t.fl = s.fl ∧ t.out = s.out := by
  obtain ⟨body, hexec, hbody⟩ := exec_eq_conclude_of_actsOnCoreOnly hi
  rw [hexec] at h
  obtain ⟨u, hu, rfl⟩ | ⟨f, -, rfl⟩ := conclude_inv h
  · rw [hbody.frame hu]
    exact ⟨rfl, rfl⟩
  · exact ⟨rfl, rfl⟩

theorem conclude_setFl (op : Byte) (s : State) (v : BitVec 3) (r : Except Failure State) :
    conclude op (s.setFl v) ((fun t => t.setFl v) <$> r) =
      onNext (fun t => t.setFl v) (conclude op s r) := by
  cases r <;> rfl

/-- Such an instruction does the same whatever `FL` holds. -/
theorem exec_setFl_of_actsOnCoreOnly {i : Instr} (hi : actsOnCoreOnly i = true) (v : BitVec 3)
    (s : State) : exec i (s.setFl v) = onNext (fun t => t.setFl v) (exec i s) := by
  obtain ⟨body, hexec, hbody⟩ := exec_eq_conclude_of_actsOnCoreOnly hi
  rw [hexec, hexec, hbody.setFl, conclude_setFl]

/-- A conditional jump writes `pc` and nothing else (R143, R144). -/
theorem branch_eq_setPc (taken : Bool) (r : Reg) (s : State) :
    branch taken r s = s.setPc (if taken then s.targetIn r else s.pc + 2) := by
  cases taken <;> rfl

/-- Every instruction but CMP, JEQ and JNE does the same whatever `FL` holds (R26). -/
theorem exec_setFl {i : Instr} (v : BitVec 3) (s : State) (hcmp : ∀ a b, i ≠ .cmp a b)
    (hjeq : ∀ r, i ≠ .jeq r) (hjne : ∀ r, i ≠ .jne r) :
    exec i (s.setFl v) = onNext (fun t => t.setFl v) (exec i s) := by
  cases i with
  | cmp a b => exact absurd rfl (hcmp a b)
  | jeq r => exact absurd rfl (hjeq r)
  | jne r => exact absurd rfl (hjne r)
  | hlt | prn | pra => rfl
  | _ => exact exec_setFl_of_actsOnCoreOnly rfl v s

/-- Every instruction but CMP keeps `FL` (R26). -/
theorem exec_fl {i : Instr} {s t : State} (hcmp : ∀ a b, i ≠ .cmp a b) (h : exec i s = .next t) :
    t.fl = s.fl := by
  cases i with
  | cmp a b => exact absurd rfl (hcmp a b)
  | hlt | prn | pra => cases h; rfl
  | jeq | jne => cases h; simp only [branch_eq_setPc, State.setPc_fl]
  | _ => exact (exec_keeps_of_actsOnCoreOnly rfl h).1

/-- An instruction appends its own events to the trace (R41). -/
theorem exec_out {i : Instr} {s t : State} (h : exec i s = .next t) :
    t.out = s.out ++ emitted s i := by
  cases i with
  | prn | pra => cases h; rfl
  | hlt | cmp => cases h; exact (List.append_nil _).symm
  | jeq | jne =>
    cases h
    simp only [branch_eq_setPc, State.setPc_out, emitted, List.append_nil]
  | _ => exact (exec_keeps_of_actsOnCoreOnly rfl h).2.trans (List.append_nil _).symm

/-! ## The step -/

theorem executeOne_of_fetch_ok {s : State} {i : Instr} {rest : List Byte}
    (h : fetch s = .ok (i, rest)) : executeOne s = exec i s := by
  unfold executeOne
  rw [h]

theorem executeOne_of_fetch_error {s : State} {e : DecodeError} (h : fetch s = .error e) :
    executeOne s = .next (s.enterFaulted (fetchFailure s.pc e) (fetchedOpcode e)) := by
  unfold executeOne
  rw [h]

/-- The end of a RUNNING instruction step writes at most a register and the draw counter (R190). -/
theorem endOuter_frame (enabled tick : Bool) (u : State) :
    endOuter enabled tick u = { u with
      regs := (endOuter enabled tick u).regs, draws := (endOuter enabled tick u).draws } := by
  unfold endOuter
  split <;> rfl

/-- The end of a SERVICING instruction step writes at most the mode (R183). -/
theorem endInner_frame (u : State) : endInner u = { u with mode := (endInner u).mode } := by
  unfold endInner
  split <;> rfl

/-- A step is an interrupt entry or the execution of an instruction (R180); what follows the
instruction keeps `FL` and the trace. -/
theorem stepWith_enters_or_executes {enabled tick : Bool} {s t : State}
    (h : stepWith enabled tick s = .next t) :
    (EntersInterrupt s ∧ interruptEntry s = .next t) ∨
    (ExecutesInstruction s ∧ ∃ u, executeOne s = .next u ∧ t.fl = u.fl ∧ t.out = u.out) := by
  obtain ⟨hm, his, he⟩ | ⟨hm, his, u, hu, rfl⟩ | ⟨hm, u, hu, rfl⟩ := stepWith_inv h
  · exact .inl ⟨⟨hm, his⟩, he⟩
  · rw [endOuter_frame]
    exact .inr ⟨.inr ⟨hm, his⟩, u, hu, rfl, rfl⟩
  · rw [endInner_frame]
    exact .inr ⟨.inl hm, u, hu, rfl, rfl⟩

theorem not_executesInstruction_of_entersInterrupt {s : State} (h : EntersInterrupt s) :
    ¬ ExecutesInstruction s := by
  obtain ⟨hm, his⟩ := h
  rintro (hm' | ⟨-, his'⟩)
  · rw [hm] at hm'
    cases hm'
  · exact his' his

/-- A step that changes `FL` executes a fetched CMP (R26). -/
theorem stepWith_fl_ne {enabled tick : Bool} {s t : State} (h : stepWith enabled tick s = .next t)
    (hne : t.fl ≠ s.fl) :
    ExecutesInstruction s ∧ ∃ a b rest, fetch s = .ok (.cmp a b, rest) := by
  obtain ⟨-, he⟩ | ⟨hx, u, hu, hfl, -⟩ := stepWith_enters_or_executes h
  · exact absurd (interruptEntry_keeps he).1 hne
  refine ⟨hx, ?_⟩
  rw [hfl] at hne
  obtain ⟨e, -, rfl⟩ | ⟨i, rest, hf, hi⟩ := executeOne_inv hu
  · exact absurd rfl hne
  by_contra hno
  exact hne (exec_fl (fun a b e => hno ⟨a, b, rest, e ▸ hf⟩) hi)

/-! ## The obligations -/

/-- Settles O39: the step's inversion leaves only CMP as a writer, and an operation on the core does
not see `FL`. -/
theorem flagsWrittenByCmpReadByJumps : Obligations.FlagsWrittenByCmpReadByJumps :=
  ⟨fun _ _ _ _ h hne => stepWith_fl_ne h hne, fun _ _ _ _ => rfl,
    fun _ v s hcmp hjeq hjne => exec_setFl v s hcmp hjeq hjne, interruptEntry_setFl⟩

/-- Settles O40: an instruction appends its own events, and the interrupt entry, a failed fetch and the
end of the step keep the trace. -/
theorem traceGrowsOnlyByPrnAndPra : Obligations.TraceGrowsOnlyByPrnAndPra := by
  intro enabled tick s t h
  obtain ⟨hen, he⟩ | ⟨hx, u, hu, -, hout⟩ := stepWith_enters_or_executes h
  · have hnx := not_executesInstruction_of_entersInterrupt hen
    exact ⟨fun _ => (interruptEntry_keeps he).2, fun hx => absurd hx hnx, fun hx => absurd hx hnx⟩
  refine ⟨fun hen => absurd hx (not_executesInstruction_of_entersInterrupt hen), ?_, ?_⟩
  · intro _ i rest hf
    rw [executeOne_of_fetch_ok hf] at hu
    rw [hout, exec_out hu]
  · intro _ e hf
    rw [executeOne_of_fetch_error hf] at hu
    cases hu
    exact hout

end Sys2Proof.Machine

/-! # Proofs: the two memory primitives

Inside memory `memRead_ok` and `memWrite_ok` give the result; outside it both primitives refuse the
address, whatever the state (R52, R53). -/

namespace Sys2Proof.Machine

theorem memRead_outside (s : State) {a : Int} (h : a < 0 ∨ a > 255) :
    memRead s a = .error ⟨.addressOutOfRange, .memory a⟩ := if_pos h

theorem memWrite_outside (s : State) {a : Int} (h : a < 0 ∨ a > 255) (v : Byte) :
    memWrite s a v = .error ⟨.addressOutOfRange, .memory a⟩ := if_pos h

/-- A write to cell `a` leaves every other cell reading as before. -/
theorem sameCellsBut_write (s : State) (a : Nat) (v : Byte) :
    SameCellsBut [a] s { s with mem := s.mem.write a v } :=
  fun _ hb => Memory.read_write_ne s.mem v (List.ne_of_not_mem_cons hb)

/-- Settles O50: the two sides of the range check of R52. -/
theorem memReadChecksTheRange : Obligations.MemReadChecksTheRange := by
  intro s a
  refine ⟨memRead_outside s, ?_⟩
  rintro n rfl hn
  exact memRead_ok s hn

/-- Settles O51: the two sides of the range check of R53, and read after write. -/
theorem memWriteChangesOneCell : Obligations.MemWriteChangesOneCell := by
  intro s a v
  refine ⟨fun h => memWrite_outside s h v, ?_⟩
  rintro n rfl hn
  exact ⟨_, memWrite_ok s hn v, Memory.read_write_self s.mem n v, sameCellsBut_write s n v, rfl⟩

end Sys2Proof.Machine

/-! # Proofs: the two output instructions

PRN and PRA differ in the opcode byte and the kind of the event; their encoding and their effect are
one fact each. -/

namespace Sys2Proof.Machine

/-- An instruction with one register operand is its opcode byte and its register's byte (R71). -/
theorem encodedAs_of_lookupOpcode_r {op : Byte} {mk : Reg → Instr} (r : Reg)
    (hrow : lookupOpcode op = some (.r mk)) (hbytes : encode (mk r) = [op, regByte r]) :
    EncodedAs (mk r) [op, regByte r] := by
  refine ⟨hbytes, fun rest => ?_⟩
  simp only [List.cons_append, List.nil_append, decode, hrow, decodeOperands, regIdx_regByte]

/-- An instruction whose rule emits an event and advances `pc` changes those two and `ir` (R41). -/
theorem conclude_emit_advance (op : Byte) (kind : OutKind) (v : Byte) (len : Nat) (s : State) :
    ∃ t, conclude op s (.ok ((s.emit kind v).advance len)) = .next t ∧
      t.out = s.out ++ [⟨kind, v⟩] ∧ t.pc = s.pc + len ∧ t.ir = op ∧ t.fl = s.fl ∧
      Frame [] [] s t :=
  ⟨_, conclude_ok _ _ _, rfl, rfl, rfl, rfl, fun _ _ => rfl, fun _ _ => rfl, rfl, rfl, rfl⟩

/-- Settles O18: the event of R91 is of kind DEC. -/
theorem prnEmitsTheRegisterAsNumber : Obligations.PrnEmitsTheRegisterAsNumber :=
  fun r => ⟨encodedAs_of_lookupOpcode_r r rfl rfl,
    fun s => conclude_emit_advance opPRN .dec (s.reg r) 2 s⟩

/-- Settles O19: the event of R92 is of kind CHR, whatever the byte. -/
theorem praEmitsTheRegisterAsCharacter : Obligations.PraEmitsTheRegisterAsCharacter :=
  fun r => ⟨encodedAs_of_lookupOpcode_r r rfl rfl,
    fun s => conclude_emit_advance opPRA .chr (s.reg r) 2 s⟩

end Sys2Proof.Machine

/-! # Proofs: the immediate load

LDI is a register write followed by the advance of `pc` (R41).  What a step does next turns on the mode
the instruction keeps and the value it leaves in R6. -/

namespace Sys2Proof.Machine

/-- An instruction with a register and an immediate is its opcode byte, its register's byte and the
immediate (R71). -/
theorem encodedAs_of_lookupOpcode_ri {op : Byte} {mk : Reg → Byte → Instr} (r : Reg) (imm : Byte)
    (hrow : lookupOpcode op = some (.ri mk)) (hbytes : encode (mk r imm) = [op, regByte r, imm]) :
    EncodedAs (mk r imm) [op, regByte r, imm] := by
  refine ⟨hbytes, fun rest => ?_⟩
  simp only [List.cons_append, List.nil_append, decode, hrow, decodeOperands, regIdx_regByte]

/-- An instruction whose rule writes a register and advances `pc` changes those two and `ir` (R41). -/
theorem conclude_setReg_advance (op : Byte) (r : Reg) (v : Byte) (len : Nat) (s : State) :
    ∃ t, conclude op s (.ok ((s.setReg r v).advance len)) = .next t ∧
      t.reg r = v ∧ t.pc = s.pc + len ∧ t.ir = op ∧ t.fl = s.fl ∧ t.out = s.out ∧
      Frame [r] [] s t :=
  ⟨_, conclude_ok _ _ _, s.reg_setReg_self r v, rfl, rfl, rfl, rfl,
    fun _ hq => s.reg_setReg_ne v (List.ne_of_not_mem_cons hq), fun _ _ => rfl, rfl, rfl, rfl⟩

/-- A pending interrupt is entered before the fetch, whatever the timer does (R182). -/
theorem stepWith_of_entersInterrupt {s : State} (h : EntersInterrupt s) (enabled tick : Bool) :
    stepWith enabled tick s = interruptEntry s := by
  obtain ⟨hm, his⟩ := h
  simp only [stepWith, hm, if_pos his]

/-- The inner loop ends in RUNNING when IS is not 1 (R183). -/
theorem endInner_of_servicing {s : State} (hm : s.mode = .servicing) (his : s.reg regIS ≠ 1) :
    endInner s = { s with mode := .running } := if_pos ⟨hm, his⟩

/-- Settles O20: LDI keeps the mode, so an immediate in R6 decides whether an interrupt is pending or
the inner loop ends. -/
theorem ldiWritesTheImmediate : Obligations.LdiWritesTheImmediate := by
  refine fun r imm => ⟨encodedAs_of_lookupOpcode_ri r imm rfl rfl, fun s => ?_⟩
  obtain ⟨t, hexec, hreg, hpc, hir, hfl, hout, hframe⟩ := conclude_setReg_advance opLDI r imm 3 s
  have hmode : t.mode = s.mode := hframe.engine.mode
  refine ⟨t, hexec, hreg, hpc, hir, hfl, hout, hframe, ?_, ?_⟩
  · rintro hrunning rfl rfl
    exact stepWith_of_entersInterrupt ⟨hmode.trans hrunning, hreg⟩
  · rintro hservicing rfl hne
    rw [endInner_of_servicing (hmode.trans hservicing) (hreg.symm ▸ hne)]

end Sys2Proof.Machine

/-! # Proofs: the ALU instructions

ADD, MULT, INC and DEC write an exact integer narrowed to a byte (R111), and that byte is the integer's
remainder modulo 256, negative or not.  CMP writes `FL` alone. -/

namespace Sys2Proof.Machine

/-- An instruction with two register operands is its opcode byte and the two registers' bytes, the
first operand first (R71). -/
theorem encodedAs_of_lookupOpcode_rr {op : Byte} {mk : Reg → Reg → Instr} (a b : Reg)
    (hrow : lookupOpcode op = some (.rr mk)) (hbytes : encode (mk a b) = [op, regByte a, regByte b]) :
    EncodedAs (mk a b) [op, regByte a, regByte b] := by
  refine ⟨hbytes, fun rest => ?_⟩
  simp only [List.cons_append, List.nil_append, decode, hrow, decodeOperands, regIdx_regByte]

/-! ## The narrowed result -/

/-- The narrowing takes the non-negative remainder, so -1 becomes 255 (R8). -/
theorem toNat_wrap8 (v : Int) : ((wrap8 v).toNat : Int) = v % 256 := by
  rw [wrap8, BitVec.toNat_ofInt, Int.toNat_of_nonneg (Int.emod_nonneg v (by decide))]
  rfl

/-- An ALU result is a register write followed by the advance of `pc` (R110, R111). -/
theorem conclude_aluWrite (op : Byte) (d : Reg) (v : Int) (len : Nat) (s : State) :
    ∃ t, conclude op s (.ok (aluWrite d v len s)) = .next t ∧
      ((t.reg d).toNat : Int) = v % 256 ∧ t.pc = s.pc + len ∧ t.ir = op ∧ t.fl = s.fl ∧
      t.out = s.out ∧ Frame [d] [] s t := by
  obtain ⟨t, hexec, hreg, hrest⟩ := conclude_setReg_advance op d (wrap8 v) len s
  exact ⟨t, hexec, hreg ▸ toNat_wrap8 v, hrest⟩

/-- The same for a result that is a natural number. -/
theorem conclude_aluWrite_natCast (op : Byte) (d : Reg) {v : Int} {n : Nat} (hv : n = v) (len : Nat)
    (s : State) :
    ∃ t, conclude op s (.ok (aluWrite d v len s)) = .next t ∧
      (t.reg d).toNat = n % 256 ∧ t.pc = s.pc + len ∧ t.ir = op ∧ t.fl = s.fl ∧
      t.out = s.out ∧ Frame [d] [] s t := by
  obtain ⟨t, hexec, hreg, hrest⟩ := conclude_aluWrite op d v len s
  subst hv
  exact ⟨t, hexec, mod_cast hreg, hrest⟩

/-! ## The comparison -/

theorem compareFlags_of_lt {x y : Byte} (h : x.toNat < y.toNat) : compareFlags x y = flagLess :=
  if_pos h

theorem compareFlags_of_gt {x y : Byte} (h : x.toNat > y.toNat) : compareFlags x y = flagGreater :=
  (if_neg h.not_gt).trans (if_pos h)

theorem compareFlags_of_eq {x y : Byte} (h : x.toNat = y.toNat) : compareFlags x y = flagEqual :=
  (if_neg h.not_lt).trans (if_neg h.not_gt)

/-- An instruction whose rule writes `FL` and advances `pc` changes those two and `ir` (R110). -/
theorem conclude_setFl_advance (op : Byte) (v : BitVec 3) (len : Nat) (s : State) :
    ∃ t, conclude op s (.ok ((s.setFl v).advance len)) = .next t ∧
      t.fl = v ∧ t.pc = s.pc + len ∧ t.ir = op ∧ t.out = s.out ∧ Frame [] [] s t :=
  ⟨_, conclude_ok _ _ _, rfl, rfl, rfl, rfl, fun _ _ => rfl, fun _ _ => rfl, rfl, rfl, rfl⟩

/-! ## The obligations -/

/-- Settles O23: the sum of two bytes is a natural number, narrowed. -/
theorem addWritesTheSumModulo256 : Obligations.AddWritesTheSumModulo256 :=
  fun a b => ⟨encodedAs_of_lookupOpcode_rr a b rfl rfl,
    fun s => conclude_aluWrite_natCast opADD a (Nat.cast_add _ _) 3 s⟩

/-- Settles O24: the product of two bytes is a natural number, narrowed. -/
theorem multWritesTheProductModulo256 : Obligations.MultWritesTheProductModulo256 :=
  fun a b => ⟨encodedAs_of_lookupOpcode_rr a b rfl rfl,
    fun s => conclude_aluWrite_natCast opMULT a (Nat.cast_mul _ _) 3 s⟩

/-- Settles O25: the value written is `compareFlags` of the two registers, whatever `FL` held. -/
theorem cmpWritesOneFlag : Obligations.CmpWritesOneFlag := by
  refine fun a b => ⟨encodedAs_of_lookupOpcode_rr a b rfl rfl, fun s => ?_⟩
  obtain ⟨t, hexec, hfl, hrest⟩ :=
    conclude_setFl_advance opCMP (compareFlags (s.reg a) (s.reg b)) 3 s
  exact ⟨t, hexec, fun h => hfl.trans (compareFlags_of_lt h), fun h => hfl.trans (compareFlags_of_gt h),
    fun h => hfl.trans (compareFlags_of_eq h), hrest⟩

/-- Settles O26: the successor of a byte is a natural number, narrowed. -/
theorem incAddsOneModulo256 : Obligations.IncAddsOneModulo256 :=
  fun r => ⟨encodedAs_of_lookupOpcode_r r rfl rfl,
    fun s => conclude_aluWrite_natCast opINC r (Nat.cast_succ _) 2 s⟩

/-- Settles O27: the difference may be -1, so the remainder is taken on integers. -/
theorem decSubtractsOneModulo256 : Obligations.DecSubtractsOneModulo256 :=
  fun r => ⟨encodedAs_of_lookupOpcode_r r rfl rfl,
    fun s => conclude_aluWrite opDEC r ((s.reg r).toNat - 1) 2 s⟩

end Sys2Proof.Machine

/-! # Proofs: the conditional jumps

JEQ and JNE are one branch on opposite tests of `FL`.  The register byte is refused by the decoder, which
does not see `FL`. -/

namespace Sys2Proof.Machine

/-- An instruction with one register operand is refused when its register byte is above 7 (R78). -/
theorem decode_badRegister_of_lookupOpcode_r {op : Byte} {mk : Reg → Instr} {f : Byte}
    (rest : List Byte) (hrow : lookupOpcode op = some (.r mk)) (hf : 7 < f.toNat) :
    decode (op :: f :: rest) = .error (.badRegister op f) := by
  simp only [decode, hrow, decodeOperands, regIdx_none hf]

/-- The test holds where `FL` is EQUAL (R25). -/
theorem State.isEqual_of_eq {s : State} (h : s.fl = 0b001) : s.isEqual = true := decide_eq_true h

/-- The test fails on every other value, 0b000 included (R143, R144). -/
theorem State.isEqual_of_ne {s : State} (h : s.fl ≠ 0b001) : s.isEqual = false := decide_eq_false h

/-- An instruction whose rule is a branch changes `pc` and `ir`, each way of the branch to its one
target (R145). -/
theorem conclude_branch (op : Byte) (taken : Bool) (r : Reg) (s : State) :
    ∃ t, conclude op s (.ok (branch taken r s)) = .next t ∧
      (taken = true → t.pc = (s.reg r).toNat) ∧ (taken = false → t.pc = s.pc + 2) ∧
      t.ir = op ∧ t.fl = s.fl ∧ t.out = s.out ∧ Frame [] [] s t := by
  rw [branch_eq_setPc]
  exact ⟨_, conclude_ok _ _ _, fun h => if_pos h, fun h => if_neg (Bool.eq_false_iff.mp h),
    rfl, rfl, rfl, fun _ _ => rfl, fun _ _ => rfl, rfl, rfl, rfl⟩

/-- Settles O33: the branch is taken on the test of `FL`. -/
theorem jeqJumpsWhenEqual : Obligations.JeqJumpsWhenEqual := by
  refine fun r => ⟨encodedAs_of_lookupOpcode_r r rfl rfl, fun s => ?_,
    fun _ rest => decode_badRegister_of_lookupOpcode_r rest rfl⟩
  obtain ⟨t, hexec, htaken, hnot, hrest⟩ := conclude_branch opJEQ s.isEqual r s
  exact ⟨t, hexec, fun h => htaken (State.isEqual_of_eq h), fun h => hnot (State.isEqual_of_ne h),
    hrest⟩

/-- Settles O34: the branch is taken on the negated test, so also before any CMP. -/
theorem jneJumpsWhenNotEqual : Obligations.JneJumpsWhenNotEqual := by
  refine fun r => ⟨encodedAs_of_lookupOpcode_r r rfl rfl, fun s => ?_,
    fun _ rest => decode_badRegister_of_lookupOpcode_r rest rfl⟩
  obtain ⟨t, hexec, htaken, hnot, hrest⟩ := conclude_branch opJNE (!s.isEqual) r s
  exact ⟨t, hexec, fun h => htaken (congrArg not (State.isEqual_of_ne h)),
    fun h => hnot (congrArg not (State.isEqual_of_eq h)), hrest⟩

end Sys2Proof.Machine

/-! # Proofs: the two loops

An instruction step does the same in RUNNING and SERVICING (R181); which loop the core is in decides only
whether the interrupt status is tested first and what follows the instruction (R180, R182). -/

namespace Sys2Proof.Machine

/-! ## The loop an instruction runs in -/

/-- A state that ends a RUNNING instruction step, moved to the inner loop; HALTED and FAULTED stay. -/
def State.intoServicing (t : State) : State :=
  if t.mode = .running then { t with mode := .servicing } else t

/-- FAULTED is entered alike from both loops (R177). -/
theorem enterFaulted_intoServicing (s : State) (f : Failure) (op : Option Byte) :
    ({ s with mode := .servicing }).enterFaulted f op =
      (({ s with mode := .running }).enterFaulted f op).intoServicing :=
  rfl

/-- Completing an instruction from RUNNING and moving its result to the inner loop is completing it
from SERVICING with the same registers, `pc` and memory. -/
theorem ActsOnCore.conclude_intoServicing {body : State → Except Failure State}
    (h : ActsOnCore body) (op : Byte) (s : State) :
    conclude op { s with mode := .servicing } (body { s with mode := .servicing }) =
      onNext State.intoServicing
        (conclude op { s with mode := .running } (body { s with mode := .running })) := by
  have hbody : body { s with mode := .servicing } = _ :=
    h { s with mode := .running } { s with mode := .servicing }
  rw [hbody]
  cases hr : body { s with mode := .running } with
  | error f => exact congrArg Host.Outcome.next (enterFaulted_intoServicing s f (some op))
  | ok t => rw [h.frame hr]; rfl

/-- R181 for the instructions that act on no field beside the registers, `pc` and memory. -/
theorem exec_intoServicing_of_actsOnCoreOnly {i : Instr} (hi : actsOnCoreOnly i = true) (s : State) :
    exec i { s with mode := .servicing } =
      onNext State.intoServicing (exec i { s with mode := .running }) := by
  obtain ⟨body, hexec, hbody⟩ := exec_eq_conclude_of_actsOnCoreOnly hi
  rw [hexec, hexec, hbody.conclude_intoServicing]

/-- R181 for each instruction: HLT stops either loop, and no other instruction reads or writes the mode
beside its failure. -/
theorem exec_intoServicing (i : Instr) (s : State) :
    exec i { s with mode := .servicing } =
      onNext State.intoServicing (exec i { s with mode := .running }) := by
  cases i with
  | hlt | prn | pra | cmp => rfl
  | jeq | jne => simp only [exec, execJeq, execJne, branch_eq_setPc]; rfl
  | _ => exact exec_intoServicing_of_actsOnCoreOnly rfl s

/-- The fetch does not see the mode (R77). -/
theorem fetch_mode (s : State) (m : Mode) : fetch { s with mode := m } = fetch s := rfl

/-- R181 for the whole instruction step: the same bytes are fetched in both loops. -/
theorem executeOne_intoServicing (s : State) :
    executeOne { s with mode := .servicing } =
      onNext State.intoServicing (executeOne { s with mode := .running }) := by
  cases hf : fetch s with
  | error e =>
    rw [executeOne_of_fetch_error ((fetch_mode s .servicing).trans hf),
      executeOne_of_fetch_error ((fetch_mode s .running).trans hf), onNext_next,
      enterFaulted_intoServicing]
  | ok p =>
    rw [executeOne_of_fetch_ok ((fetch_mode s .servicing).trans hf),
      executeOne_of_fetch_ok ((fetch_mode s .running).trans hf), exec_intoServicing]

/-! ## The step in each loop -/

/-- In RUNNING with no interrupt pending the step executes an instruction (R180, R182). -/
theorem stepWith_of_running {s : State} (hm : s.mode = .running) (his : s.reg regIS ≠ 1)
    (enabled tick : Bool) :
    stepWith enabled tick s = onNext (endOuter enabled tick) (executeOne s) := by
  simp only [stepWith, hm, if_neg his]

/-- In SERVICING the step executes an instruction whatever R6 holds (R180, R182). -/
theorem stepWith_of_servicing {s : State} (hm : s.mode = .servicing) (enabled tick : Bool) :
    stepWith enabled tick s = onNext endInner (executeOne s) := by
  simp only [stepWith, hm]

/-! ## The obligations -/

/-- Settles O45: neither the fetch nor an instruction reads the mode. -/
theorem instructionIsTheSameInBothLoops : Obligations.InstructionIsTheSameInBothLoops :=
  ⟨executeOne_intoServicing, exec_intoServicing⟩

/-- Settles O11: the step's equation in each loop. -/
theorem interruptIsCheckedBeforeTheFetch : Obligations.InterruptIsCheckedBeforeTheFetch :=
  fun _ enabled tick => ⟨fun hm his => stepWith_of_entersInterrupt ⟨hm, his⟩ enabled tick,
    fun hm his => stepWith_of_running hm his enabled tick,
    fun hm => stepWith_of_servicing hm enabled tick⟩

end Sys2Proof.Machine

/-! # Proofs: decode and encode

A row of the opcode table fixes the format of the instructions it makes and their bytes, so the
decoder's lookup and the encoder's opcode byte are two readings of one table (R71, R74). -/

namespace Sys2Proof

open Machine

/-! ## The rows of the table -/

/-- The format of the instructions a row makes (R72). -/
def Shape.format : Shape → Format
  | .n _ => .n
  | .r _ => .r
  | .rr _ => .rr
  | .ri _ => .ri

/-- The instructions a row makes are encoded with the row's opcode byte and their register bytes. -/
def Shape.EncodedWith (op : Byte) : Shape → Prop
  | .n i => encode i = [op]
  | .r mk => ∀ r, encode (mk r) = [op, regByte r]
  | .rr mk => ∀ a b, encode (mk a b) = [op, regByte a, regByte b]
  | .ri mk => ∀ r imm, encode (mk r imm) = [op, regByte r, imm]

/-- Every row of the table agrees with the encoder. -/
theorem opcodeTable_encodedWith : ∀ row ∈ opcodeTable, row.2.EncodedWith row.1 := by
  simp [opcodeTable, Shape.EncodedWith, encode, opcodeOf, Instr.operandBytes]

/-- An instruction's opcode byte has a row, of the instruction's format. -/
theorem lookupOpcode_opcodeOf (i : Instr) :
    ∃ shape, lookupOpcode (opcodeOf i) = some shape ∧ shape.format = i.format := by
  cases i <;> exact ⟨_, rfl, rfl⟩

/-- The opcode byte fixes the format (R73, R81). -/
theorem format_eq_of_opcodeOf_eq {i i' : Instr} (h : opcodeOf i = opcodeOf i') :
    i.format = i'.format := by
  obtain ⟨shape, hrow, hformat⟩ := lookupOpcode_opcodeOf i
  obtain ⟨shape', hrow', hformat'⟩ := lookupOpcode_opcodeOf i'
  rw [h, hrow'] at hrow
  cases hrow
  exact hformat.symm.trans hformat'

/-- The bytes of the table are the 19 of R74. -/
theorem lookupOpcode_eq_none_iff (op : Byte) : lookupOpcode op = none ↔ op ∉ listedOpcodes := by
  have hbytes : listedOpcodes = opcodeTable.map Prod.fst := rfl
  simp only [lookupOpcode, Option.map_eq_none_iff, List.find?_eq_none, beq_iff_eq, hbytes,
    List.mem_map, not_exists, not_and]

theorem length_encode (i : Instr) : (encode i).length = i.format.length := by
  cases i <;> rfl

/-! ## From an instruction to its bytes and back -/

theorem encodedAs_of_lookupOpcode_n {op : Byte} {i : Instr} (hrow : lookupOpcode op = some (.n i))
    (hbytes : encode i = [op]) : EncodedAs i [op] := by
  refine ⟨hbytes, fun rest => ?_⟩
  simp only [List.cons_append, List.nil_append, decode, hrow, decodeOperands]

/-- Every instruction is read back from its encoding. -/
theorem encodedAs_encode (i : Instr) : EncodedAs i (encode i) := by
  cases i with
  | hlt | ret | iret => exact encodedAs_of_lookupOpcode_n rfl rfl
  | ldi r imm => exact encodedAs_of_lookupOpcode_ri r imm rfl rfl
  | ld a b | st a b | add a b | mult a b | cmp a b => exact encodedAs_of_lookupOpcode_rr a b rfl rfl
  | prn r | pra r | inc r | dec r | push r | pop r | call r | jmp r | jeq r | jne r =>
    exact encodedAs_of_lookupOpcode_r r rfl rfl

/-- An opcode byte without a row is illegal, whatever follows it (R76). -/
theorem decode_of_lookupOpcode_none {op : Byte} (rest : List Byte) (h : lookupOpcode op = none) :
    decode (op :: rest) = .error (.illegalOpcode op) := by
  simp only [decode, h]

/-- An opcode byte with a row reads its operands. -/
theorem decode_of_lookupOpcode_some {op : Byte} {shape : Shape} (rest : List Byte)
    (h : lookupOpcode op = some shape) : decode (op :: rest) = decodeOperands op shape rest := by
  simp only [decode, h]

/-- The bytes a row's operands are read from are the encoding of what it makes and the rest. -/
theorem decodeOperands_inv {op : Byte} {shape : Shape} {bytes rest : List Byte} {i : Instr}
    (hrow : shape.EncodedWith op) (h : decodeOperands op shape bytes = .ok (i, rest)) :
    op :: bytes = encode i ++ rest := by
  cases shape with
  | n j =>
    cases h
    exact congrArg (· ++ bytes) hrow.symm
  | r mk =>
    obtain _ | ⟨b1, tail⟩ := bytes
    · cases h
    simp only [decodeOperands] at h
    split at h
    · cases h
    next r hr =>
      cases h
      rw [regIdx_inv hr, hrow r]
      rfl
  | rr mk =>
    obtain _ | ⟨b1, _ | ⟨b2, tail⟩⟩ := bytes
    · cases h
    · cases h
    simp only [decodeOperands] at h
    split at h
    · cases h
    next a ha =>
      split at h
      · cases h
      next b hb =>
        cases h
        rw [regIdx_inv ha, regIdx_inv hb, hrow a b]
        rfl
  | ri mk =>
    obtain _ | ⟨b1, _ | ⟨imm, tail⟩⟩ := bytes
    · cases h
    · cases h
    simp only [decodeOperands] at h
    split at h
    · cases h
    next r hr =>
      cases h
      rw [regIdx_inv hr, hrow r imm]
      rfl

/-- Bytes that decode to an instruction are its encoding and the bytes left. -/
theorem decode_inv {bytes rest : List Byte} {i : Instr} (h : decode bytes = .ok (i, rest)) :
    bytes = encode i ++ rest := by
  cases bytes with
  | nil => cases h
  | cons op tail =>
    cases hrow : lookupOpcode op with
    | none =>
      rw [decode_of_lookupOpcode_none tail hrow] at h
      cases h
    | some shape =>
      rw [decode_of_lookupOpcode_some tail hrow] at h
      exact decodeOperands_inv (opcodeTable_encodedWith _ (lookupOpcode_mem hrow)) h

/-- The first byte of a decoded instruction is its opcode byte. -/
theorem opcodeOf_of_decode {op : Byte} {tail rest : List Byte} {i : Instr}
    (h : decode (op :: tail) = .ok (i, rest)) : opcodeOf i = op :=
  (List.cons.inj (decode_inv h)).1.symm

/-! ## Bytes that are no instruction -/

/-- Whatever the operands are refused for, it names the opcode byte, and that is not illegal. -/
theorem decodeOperands_error {op : Byte} {shape : Shape} {bytes : List Byte} {e : DecodeError}
    (h : decodeOperands op shape bytes = .error e) :
    (∃ k, e = .missingOperand op k) ∨ ∃ f, e = .badRegister op f := by
  unfold decodeOperands at h
  (repeat' split at h) <;> cases h <;> simp

/-- A byte at most 7 names a register. -/
theorem regIdx_some {f : Byte} (h : f.toNat ≤ 7) : ∃ r, regIdx f = some r :=
  (registerByteOk_iff f).mp (decide_eq_true (by omega))

/-- The first register operand is checked in every format that has one (R78). -/
theorem decodeOperands_badRegister_first {op f : Byte} {shape : Shape} {tail : List Byte}
    (hf : 7 < f.toNat) (hn : shape.format ≠ .n)
    (hlen : shape.format.operandCount ≤ tail.length + 1) :
    decodeOperands op shape (f :: tail) = .error (.badRegister op f) := by
  cases shape with
  | n i => exact absurd rfl hn
  | r mk => simp only [decodeOperands, regIdx_none hf]
  | rr mk | ri mk =>
    cases tail with
    | nil => simp [Shape.format, Format.operandCount] at hlen
    | cons b tail => simp only [decodeOperands, regIdx_none hf]

/-- The second register operand is checked after the first (R173). -/
theorem decodeOperands_badRegister_second {op b f : Byte} {shape : Shape} (tail : List Byte)
    (hrr : shape.format = .rr) (hb : b.toNat ≤ 7) (hf : 7 < f.toNat) :
    decodeOperands op shape (b :: f :: tail) = .error (.badRegister op f) := by
  cases shape with
  | rr mk =>
    obtain ⟨r, hr⟩ := regIdx_some hb
    simp only [decodeOperands, hr, regIdx_none hf]
  | _ => cases hrr

/-- The first operand byte that is not there is reported, whatever those before it hold (R173). -/
theorem decodeOperands_missing {op : Byte} {shape : Shape} {bytes : List Byte}
    (h : bytes.length < shape.format.operandCount) :
    decodeOperands op shape bytes = .error (.missingOperand op (bytes.length + 1)) := by
  unfold decodeOperands
  split <;> simp [Shape.format, Format.operandCount] at h ⊢

/-! ## The obligations -/

/-- Settles O2: each row is read back with the operand bytes the encoder writes. -/
theorem decodeReadsEveryEncoding : Obligations.DecodeReadsEveryEncoding :=
  fun i rest => (encodedAs_encode i).2 rest

/-- Settles O3: the row the decoder finds encodes what it makes. -/
theorem decodedBytesAreTheEncoding : Obligations.DecodedBytesAreTheEncoding :=
  fun _ _ _ h => decode_inv h

/-- Settles O4: a byte with a row is never the illegal one, and the 19 rows are counted. -/
theorem unlistedOpcodesAreIllegal : Obligations.UnlistedOpcodesAreIllegal := by
  refine ⟨fun op rest => ?_, by decide +kernel⟩
  rw [← lookupOpcode_eq_none_iff]
  refine ⟨fun h => ?_, decode_of_lookupOpcode_none rest⟩
  cases hrow : lookupOpcode op with
  | none => rfl
  | some shape =>
    rw [decode_of_lookupOpcode_some rest hrow] at h
    obtain ⟨k, hk⟩ | ⟨f, hf⟩ := decodeOperands_error h
    · cases hk
    · cases hf

/-- Settles O5: the row of an instruction's opcode byte has the instruction's format. -/
theorem registerBytesAboveSevenAreRejected : Obligations.RegisterBytesAboveSevenAreRejected := by
  intro i f b rest hf
  obtain ⟨shape, hrow, hformat⟩ := lookupOpcode_opcodeOf i
  simp only [decode_of_lookupOpcode_some _ hrow, ← hformat]
  refine ⟨fun h => ?_, fun h => ?_, fun h => ?_, fun h hb => ?_⟩
  · exact decodeOperands_badRegister_first hf (by simp [h]) (by simp [h, Format.operandCount])
  · exact decodeOperands_badRegister_first hf (by simp [h]) (by simp [h, Format.operandCount])
  · exact decodeOperands_badRegister_first hf (by simp [h]) (by simp [h, Format.operandCount])
  · exact decodeOperands_badRegister_second rest h hb hf

/-- Settles O6: the bytes taken are the encoding, and its first byte fixes the format. -/
theorem lengthIsFixedByTheOpcode : Obligations.LengthIsFixedByTheOpcode := by
  refine ⟨fun bytes i rest h => ?_, fun op tail tail' rest rest' i i' h h' => ?_⟩
  · rw [decode_inv h, List.length_append, length_encode]
  · exact format_eq_of_opcodeOf_eq ((opcodeOf_of_decode h).trans (opcodeOf_of_decode h').symm)

/-- Settles O1: the decoder computes each word. -/
theorem specWordsDecode : Obligations.SpecWordsDecode :=
  ⟨rfl, rfl, rfl, rfl, rfl, rfl, rfl, rfl, rfl⟩

end Sys2Proof

/-! # Proofs: the fetch

The fetch window is the cells from `pc` to the end of memory, three at most.  What the decoder
answers on it gives each failure of R173 in its order. -/

namespace Sys2Proof.Machine

/-! ## The window -/

theorem fetchBytes_of_gt (s : State) (n : Nat) {a : Nat} (h : 255 < a) : fetchBytes s n a = [] := by
  cases n with
  | zero => rfl
  | succ n => simp only [fetchBytes, fetchByte_none s h]

theorem fetchBytes_succ_of_le (s : State) (n : Nat) {a : Nat} (h : a ≤ 255) :
    fetchBytes s (n + 1) a = s.mem.read a :: fetchBytes s n (a + 1) := by
  simp only [fetchBytes, fetchByte_some s h]

theorem length_fetchBytes (s : State) (n a : Nat) :
    (fetchBytes s n a).length = min n (256 - a) := by
  induction n generalizing a with
  | zero => simp [fetchBytes]
  | succ n ih =>
    by_cases ha : a ≤ 255
    · rw [fetchBytes_succ_of_le s n ha, List.length_cons, ih]
      omega
    · rw [fetchBytes_of_gt s _ (by omega), List.length_nil]
      omega

/-- The opcode byte and the cells after it. -/
theorem fetchWindow_of_le {s : State} (h : s.pc ≤ 255) :
    fetchWindow s = s.mem.read s.pc :: fetchBytes s 2 (s.pc + 1) :=
  fetchBytes_succ_of_le s 2 h

theorem fetchWindow_of_gt {s : State} (h : 255 < s.pc) : fetchWindow s = [] :=
  fetchBytes_of_gt s 3 h

/-! ## What the fetch answers -/

/-- The fetch reads the instruction whose encoding begins the window. -/
theorem fetch_of_take_eq_encode {s : State} {i : Instr} {n : Nat}
    (h : (fetchWindow s).take n = encode i) : ∃ rest, fetch s = .ok (i, rest) := by
  refine ⟨(fetchWindow s).drop n, ?_⟩
  rw [fetch, ← List.take_append_drop n (fetchWindow s), h, (encodedAs_encode i).2,
    ← h, List.take_append_drop]

theorem operandCount_le (f : Format) : f.operandCount ≤ 2 := by
  cases f <;> decide

theorem one_le_operandCount {f : Format} (h : f ≠ .n) : 1 ≤ f.operandCount := by
  cases f with
  | n => exact absurd rfl h
  | _ => decide

/-- The encoding that stands at `pc` begins the window. -/
theorem StandsAtPc.take_fetchWindow {s : State} {i : Instr} (h : StandsAtPc s i) :
    (fetchWindow s).take (encode i).length = encode i := by
  obtain ⟨hfit, hread⟩ := h
  rw [← length_encode] at hfit
  have hcount := operandCount_le i.format
  have hlen := length_encode i
  rw [Format.length] at hlen
  refine List.ext_getElem? fun k => ?_
  rw [List.getElem?_take]
  by_cases hk : k < (encode i).length
  · rw [if_pos hk, fetchWindow, fetchBytes_getElem?, if_pos ⟨by omega, by omega⟩, hread k hk,
      List.getElem?_eq_getElem hk]
  · rw [if_neg hk, List.getElem?_eq_none (by omega)]

/-- A fetched instruction lies inside memory, and its opcode byte is the one at `pc`. -/
theorem fetch_ok_inv {s : State} {i : Instr} {rest : List Byte} (h : fetch s = .ok (i, rest)) :
    s.pc + i.format.length ≤ 256 ∧ s.pc ≤ 255 ∧ opcodeOf i = s.mem.read s.pc := by
  have hlen := congrArg List.length (decode_inv h)
  rw [fetchWindow, length_fetchBytes, List.length_append, length_encode] at hlen
  have hpos : 1 ≤ i.format.length := Nat.le_add_right 1 _
  have hpc : s.pc ≤ 255 := by omega
  rw [fetch, fetchWindow_of_le hpc] at h
  exact ⟨by omega, hpc, opcodeOf_of_decode h⟩

/-- The opcode byte in the record of a failed fetch is the first byte of the window (R174). -/
theorem fetchedOpcode_of_decode_error {bytes : List Byte} {e : DecodeError}
    (h : decode bytes = .error e) : fetchedOpcode e = bytes.head? := by
  cases bytes with
  | nil => cases h; rfl
  | cons op tail =>
    cases hrow : lookupOpcode op with
    | none =>
      rw [decode_of_lookupOpcode_none tail hrow] at h
      cases h
      rfl
    | some shape =>
      rw [decode_of_lookupOpcode_some tail hrow] at h
      obtain ⟨k, rfl⟩ | ⟨f, rfl⟩ := decodeOperands_error h <;> rfl

/-! ## The failures of R173, in their order -/

theorem fetch_noOpcode {s : State} (h : 255 < s.pc) : fetch s = .error .noOpcode := by
  rw [fetch, fetchWindow_of_gt h]
  rfl

theorem fetch_illegalOpcode {s : State} (hpc : s.pc ≤ 255) (h : s.mem.read s.pc ∉ listedOpcodes) :
    fetch s = .error (.illegalOpcode (s.mem.read s.pc)) := by
  rw [fetch, fetchWindow_of_le hpc]
  exact decode_of_lookupOpcode_none _ ((lookupOpcode_eq_none_iff _).mpr h)

/-- Past the opcode the fetch reads the operands of the instruction's row. -/
theorem fetch_of_opcodeOf {s : State} {i : Instr} (hpc : s.pc ≤ 255)
    (hop : s.mem.read s.pc = opcodeOf i) :
    ∃ shape, shape.format = i.format ∧
      fetch s = decodeOperands (opcodeOf i) shape (fetchBytes s 2 (s.pc + 1)) := by
  obtain ⟨shape, hrow, hformat⟩ := lookupOpcode_opcodeOf i
  refine ⟨shape, hformat, ?_⟩
  rw [fetch, fetchWindow_of_le hpc, hop]
  exact decode_of_lookupOpcode_some _ hrow

/-- The first missing operand byte is the one past the last cell. -/
theorem fetch_missingOperand {s : State} {i : Instr} (hpc : s.pc ≤ 255)
    (hop : s.mem.read s.pc = opcodeOf i) (h : 255 < s.pc + i.format.operandCount) :
    fetch s = .error (.missingOperand (opcodeOf i) (256 - s.pc)) := by
  obtain ⟨shape, hformat, hfetch⟩ := fetch_of_opcodeOf hpc hop
  have hcount := operandCount_le i.format
  have hlen : (fetchBytes s 2 (s.pc + 1)).length + 1 = 256 - s.pc := by
    rw [length_fetchBytes]
    omega
  rw [hfetch, decodeOperands_missing (by rw [hformat]; omega), hlen]

theorem fetch_badRegister_first {s : State} {i : Instr} (hop : s.mem.read s.pc = opcodeOf i)
    (hfit : s.pc + i.format.operandCount ≤ 255) (hn : i.format ≠ .n)
    (hreg : 7 < (s.mem.read (s.pc + 1)).toNat) :
    fetch s = .error (.badRegister (opcodeOf i) (s.mem.read (s.pc + 1))) := by
  obtain ⟨shape, hformat, hfetch⟩ := fetch_of_opcodeOf (i := i) (by omega) hop
  have hpos := one_le_operandCount hn
  have hlen := length_fetchBytes s 1 (s.pc + 2)
  have hcount := operandCount_le i.format
  rw [hfetch, fetchBytes_succ_of_le s 1 (by omega)]
  exact decodeOperands_badRegister_first hreg (hformat ▸ hn) (by rw [hformat, hlen]; omega)

theorem fetch_badRegister_second {s : State} {i : Instr} (hop : s.mem.read s.pc = opcodeOf i)
    (hfit : s.pc + i.format.operandCount ≤ 255) (hrr : i.format = .rr)
    (hfirst : (s.mem.read (s.pc + 1)).toNat ≤ 7) (hreg : 7 < (s.mem.read (s.pc + 2)).toNat) :
    fetch s = .error (.badRegister (opcodeOf i) (s.mem.read (s.pc + 2))) := by
  obtain ⟨shape, hformat, hfetch⟩ := fetch_of_opcodeOf (i := i) (by omega) hop
  rw [hrr] at hfit
  have hpc : s.pc + 2 ≤ 255 := hfit
  rw [hfetch, fetchBytes_succ_of_le s 1 (by omega), fetchBytes_succ_of_le s 0 hpc]
  exact decodeOperands_badRegister_second _ (hformat.trans hrr) hfirst hreg

/-! ## The step of a failed fetch -/

/-- A failed fetch enters FAULTED from either loop, and nothing follows it. -/
theorem stepWith_of_fetch_error {s : State} (hx : ExecutesInstruction s) {e : DecodeError}
    (h : fetch s = .error e) (enabled tick : Bool) :
    stepWith enabled tick s = .next (s.enterFaulted (fetchFailure s.pc e) (fetchedOpcode e)) := by
  obtain hm | ⟨hm, his⟩ := hx
  · rw [stepWith_of_servicing hm, executeOne_of_fetch_error h]
    rfl
  · rw [stepWith_of_running hm his, executeOne_of_fetch_error h]
    rfl

/-! ## The obligations -/

/-- Settles O8: the window begins with the encoding. -/
theorem fetchReadsTheBytesAtPc : Obligations.FetchReadsTheBytesAtPc :=
  fun _ _ h => fetch_of_take_eq_encode h.take_fetchWindow

/-- Settles O9: each failure of the fetch, and the step that ends in it. -/
theorem fetchFailuresInOrder : Obligations.FetchFailuresInOrder := by
  intro s enabled tick hx
  have hstep {e : DecodeError} (h : fetch s = .error e) := stepWith_of_fetch_error hx h enabled tick
  refine ⟨fun hpc => ⟨_, hstep (fetch_noOpcode hpc), rfl⟩,
    fun hpc hop => ⟨_, hstep (fetch_illegalOpcode hpc hop), rfl⟩, fun i hpc hop => ⟨?_, ?_, ?_⟩⟩
  · intro hmissing
    refine ⟨_, hstep (fetch_missingOperand hpc hop hmissing), ?_⟩
    have hlast : ((s.pc : Int) + (256 - s.pc : Nat)) = 256 := by omega
    simp only [fetchFailure, hlast]
    rfl
  · exact fun hfit hn hreg => ⟨_, hstep (fetch_badRegister_first hop hfit hn hreg), rfl⟩
  · exact fun hfit hrr hfirst hreg =>
      ⟨_, hstep (fetch_badRegister_second hop hfit hrr hfirst hreg), rfl⟩

end Sys2Proof.Machine

/-! # Proofs: the loops around an instruction

What follows an instruction depends on the mode it leaves: the timer sample in RUNNING (R190), the
test of the interrupt status in SERVICING (R183), nothing after HLT or a failure (R180). -/

namespace Sys2Proof.Machine

/-! ## The step of a fetched instruction -/

/-- The step of a fetched instruction in RUNNING with no interrupt pending (R77, R180). -/
theorem stepWith_running_of_fetch {s : State} {i : Instr} {rest : List Byte}
    (hm : s.mode = .running) (his : s.reg regIS ≠ 1) (hf : fetch s = .ok (i, rest))
    (enabled tick : Bool) :
    stepWith enabled tick s = onNext (endOuter enabled tick) (exec i s) := by
  rw [stepWith_of_running hm his, executeOne_of_fetch_ok hf]

/-- The step of a fetched instruction in SERVICING (R77, R180). -/
theorem stepWith_servicing_of_fetch {s : State} {i : Instr} {rest : List Byte}
    (hm : s.mode = .servicing) (hf : fetch s = .ok (i, rest)) (enabled tick : Bool) :
    stepWith enabled tick s = onNext endInner (exec i s) := by
  rw [stepWith_of_servicing hm, executeOne_of_fetch_ok hf]

/-! ## The timer sample -/

/-- The register file after a sample: an enabled tick writes 1 into R6 (R190). -/
theorem timerSample_reg (enabled tick : Bool) (u : State) (r : Reg) :
    (timerSample enabled tick u).reg r =
      if enabled = true ∧ tick = true ∧ r = regIS then 1 else u.reg r := by
  cases h : enabled && tick with
  | true =>
    obtain ⟨rfl, rfl⟩ := Bool.and_eq_true_iff.mp h
    simp only [true_and]
    exact State.reg_setReg u regIS r 1
  | false =>
    have hno : ¬ (enabled = true ∧ tick = true ∧ r = regIS) := fun hc => by simp [hc] at h
    rw [timerSample, h, if_neg hno]
    rfl

theorem endOuter_of_running {u : State} (h : u.mode = .running) (enabled tick : Bool) :
    endOuter enabled tick u = timerSample enabled tick u := if_pos h

/-- After HLT or a failure nothing is sampled (R180). -/
theorem endOuter_of_ne_running {u : State} (h : u.mode ≠ .running) (enabled tick : Bool) :
    endOuter enabled tick u = u := if_neg h

theorem endOuter_mode (enabled tick : Bool) (u : State) :
    (endOuter enabled tick u).mode = u.mode := by
  rw [endOuter_frame]

/-! ## The end of the inner loop -/

/-- The inner loop goes on while IS is 1 (R183). -/
theorem endInner_of_active {u : State} (h : u.reg regIS = 1) : endInner u = u :=
  if_neg fun hne => hne.2 h

theorem endInner_of_ne_servicing {u : State} (h : u.mode ≠ .servicing) : endInner u = u :=
  if_neg fun hs => h hs.1

/-! ## The obligations -/

/-- Settles O7: `step` is `stepWith` at the draw of this sample. -/
theorem stepRunsDecodedInstruction : Obligations.StepRunsDecodedInstruction :=
  fun _ _ _ hf => ⟨fun hm his => stepWith_running_of_fetch hm his hf _ _,
    fun hm => stepWith_servicing_of_fetch hm hf _ _⟩

/-- Settles O10: both modes stop before the fetch. -/
theorem haltedAndFaultedHaveNoStep : Obligations.HaltedAndFaultedHaveNoStep :=
  fun s enabled tick =>
    ⟨fun hm => by simp only [step, stepWith, hm, and_self],
     fun hm => by simp only [step, stepWith, hm, and_self]⟩

/-- Settles O12: the sample is taken exactly where the core still runs. -/
theorem tickSetsTheInterruptStatus : Obligations.TickSetsTheInterruptStatus := by
  intro s u enabled tick hm his hu
  rw [stepWith_of_running hm his, hu, onNext_next]
  refine ⟨fun hmode => ?_, fun hmode => by rw [endOuter_of_ne_running hmode]⟩
  rw [endOuter_of_running hmode]
  refine ⟨_, rfl, ?_, fun r hr => ?_, rfl⟩
  · simp only [timerSample_reg, and_true]
  · rw [timerSample_reg, if_neg fun h => hr h.2.2]

/-- Settles O13: a tick writes the 1 that the next step tests. -/
theorem pendingInterruptIsTakenNext : Obligations.PendingInterruptIsTakenNext := by
  intro s t tick enabled' tick' hm his h hmode hpending
  rw [stepWith_of_running hm his] at h
  obtain ⟨u, -, rfl⟩ := onNext_inv h
  refine stepWith_of_entersInterrupt ⟨hmode, ?_⟩ enabled' tick'
  rw [endOuter_mode] at hmode
  rw [endOuter_of_running hmode] at hpending ⊢
  obtain rfl | hset := hpending
  · simp only [timerSample_reg, and_self, if_true]
  · exact hset

/-- Settles O14: the two ways of the test of R6, and no test outside SERVICING. -/
theorem innerLoopEndsWhenStatusIsNotOne : Obligations.InnerLoopEndsWhenStatusIsNotOne := by
  intro s u enabled tick hm hu
  rw [stepWith_of_servicing hm, hu, onNext_next]
  exact ⟨fun _ his => by rw [endInner_of_active his],
    fun hmode his => by rw [endInner_of_servicing hmode his],
    fun hmode => by rw [endInner_of_ne_servicing hmode]⟩

end Sys2Proof.Machine

/-! # Proofs: HLT, LD, ST and JMP

None of them can fail; each is one update of the state before the step, and the opcode byte in
`ir`. -/

namespace Sys2Proof.Machine

theorem exec_hlt (s : State) : exec .hlt s = .next { s with mode := .halted, ir := opHLT } := rfl

theorem exec_ld (a b : Reg) (s : State) :
    exec (.ld a b) s =
      conclude opLD s (.ok ((s.setReg a (s.mem.read (s.addressIn b))).advance 3)) := by
  simp only [exec, execLd, loadVia_ok]
  rfl

theorem exec_st (a b : Reg) (s : State) :
    exec (.st a b) s = .next { s with
      mem := s.mem.write (s.addressIn a) (s.reg b), pc := s.pc + 3, ir := opST } := by
  simp only [exec, execSt, storeVia_ok]
  rfl

theorem exec_jmp (r : Reg) (s : State) :
    exec (.jmp r) s = .next { s with pc := (s.reg r).toNat, ir := opJMP } := rfl

/-! ## The obligations -/

/-- Settles O17: HLT writes the mode and `ir`. -/
theorem hltHalts : Obligations.HltHalts :=
  ⟨encodedAs_encode .hlt, fun s => ⟨_, exec_hlt s, rfl, rfl, rfl, fun _ _ => rfl, fun _ _ => rfl,
    rfl, rfl, rfl, rfl⟩⟩

/-- Settles O21: LD is a register write of the addressed byte. -/
theorem ldReadsTheAddressedCell : Obligations.LdReadsTheAddressedCell :=
  fun a b => ⟨encodedAs_encode (.ld a b), fun s => by
    rw [exec_ld]
    exact conclude_setReg_advance opLD a (s.mem.read (s.addressIn b)) 3 s⟩

/-- Settles O22: ST is a write to the addressed cell. -/
theorem stWritesTheAddressedCell : Obligations.StWritesTheAddressedCell :=
  fun a b => ⟨encodedAs_encode (.st a b), fun s => ⟨_, exec_st a b s,
    Memory.read_write_self _ _ _, rfl, rfl, rfl, rfl, fun _ _ => rfl,
    fun _ hc => Memory.read_write_ne s.mem _ (List.ne_of_not_mem_cons hc), rfl, rfl, rfl⟩⟩

/-- Settles O53: the window after an ST is read from the written memory. -/
theorem storeIsSeenByTheNextFetch : Obligations.StoreIsSeenByTheNextFetch := by
  refine fun a b s => ⟨_, exec_st a b s, fun k hk hfit => ?_⟩
  rw [fetchWindow, fetchBytes_getElem?, if_pos ⟨hk, hfit⟩, Memory.read_write]
  rfl

/-- Settles O32: a JMP to its own address writes back the `pc` it found. -/
theorem jmpGoesToTheRegister : Obligations.JmpGoesToTheRegister := by
  refine fun r => ⟨encodedAs_encode (.jmp r), fun s => ⟨_, exec_jmp r s, rfl, rfl, rfl, rfl,
    fun _ _ => rfl, fun _ _ => rfl, rfl, rfl, rfl⟩, ?_⟩
  intro s rest enabled tick hf hself
  have hexec : exec (.jmp r) s = .next { s with ir := 0x54 } := by
    rw [exec_jmp, hself]
    rfl
  refine ⟨fun hm his => ?_, fun hm his => ?_⟩
  · rw [stepWith_running_of_fetch hm his hf, hexec, onNext_next,
      endOuter_of_running (u := { s with ir := 0x54 }) hm, timerSample, Bool.and_false]
    rfl
  · rw [stepWith_servicing_of_fetch hm hf, hexec, onNext_next,
      endInner_of_active (u := { s with ir := 0x54 }) his]

end Sys2Proof.Machine

/-! # Proofs: the stack instructions

A push leaves a state with one register and one cell changed, whatever is pushed; a pop is one or
two register writes.  The bounds of R58 and R59 decide between that and the failure. -/

namespace Sys2Proof.Machine

/-! ## A byte pushed -/

/-- The state after a push of `b`: SP decremented, `b` in the cell below the old SP (R58). -/
def State.pushed (s : State) (b : Byte) : State :=
  { s.setReg regSP (wrap8 (((s.reg regSP).toNat : Int) - 1)) with
    mem := s.mem.write ((s.reg regSP).toNat - 1) b }

theorem State.toNat_reg_pushed_regSP {s : State} (b : Byte) (h : 1 ≤ (s.reg regSP).toNat) :
    ((s.pushed b).reg regSP).toNat = (s.reg regSP).toNat - 1 :=
  (congrArg BitVec.toNat (s.reg_setReg_self regSP _)).trans (toNat_wrap8_pred h)

theorem State.reg_pushed_ne {s : State} (b : Byte) {r : Reg} (h : r ≠ regSP) :
    (s.pushed b).reg r = s.reg r := s.reg_setReg_ne _ h

theorem State.read_pushed (s : State) (b : Byte) :
    (s.pushed b).mem.read ((s.reg regSP).toNat - 1) = b := Memory.read_write_self _ _ _

/-- An instruction whose rule pushes a byte and writes `pc` changes those and `ir`. -/
theorem conclude_pushed_setPc (op b : Byte) (n : Nat) (s : State) :
    ∃ t, conclude op s (.ok ((s.pushed b).setPc n)) = .next t ∧
      (∀ r, t.reg r = (s.pushed b).reg r) ∧ t.mem = (s.pushed b).mem ∧ t.pc = n ∧ t.ir = op ∧
      t.fl = s.fl ∧ t.out = s.out ∧ Frame [regSP] [(s.reg regSP).toNat - 1] s t :=
  ⟨_, conclude_ok _ _ _, fun _ => rfl, rfl, rfl, rfl, rfl, rfl,
    fun _ hr => State.reg_pushed_ne b (List.ne_of_not_mem_cons hr),
    fun _ ha => Memory.read_write_ne s.mem b (List.ne_of_not_mem_cons ha), rfl, rfl, rfl⟩

/-! ## The instructions, inside the bounds and outside -/

section

variable {s : State} (r : Reg)

theorem exec_push_ok (h1 : 1 ≤ (s.reg regSP).toNat) (h2 : (s.reg regSP).toNat ≤ 244) :
    ∃ b, b = (s.pushed b).reg r ∧
      exec (.push r) s = conclude opPUSH s (.ok ((s.pushed b).setPc (s.pc + 2))) := by
  refine ⟨(s.setReg regSP (wrap8 (((s.reg regSP).toNat : Int) - 1))).reg r, rfl, ?_⟩
  simp only [exec, execPush, pushReg_ok r h1 h2]
  rfl

theorem exec_push_overflow (h : (s.reg regSP).toNat = 0) :
    exec (.push r) s =
      .next (s.enterFaulted ⟨.stackOverflow, .sp (s.reg regSP)⟩ (some opPUSH)) := by
  simp only [exec, execPush, pushReg_overflow r h]
  rfl

theorem exec_push_underflow (h : 244 < (s.reg regSP).toNat) :
    exec (.push r) s =
      .next (s.enterFaulted ⟨.stackUnderflow, .sp (s.reg regSP)⟩ (some opPUSH)) := by
  simp only [exec, execPush, pushReg_underflow r h]
  rfl

theorem exec_pop_ok (h : (s.reg regSP).toNat < 244) :
    exec (.pop r) s = conclude opPOP s (.ok
      (((s.setReg r (s.mem.read (s.reg regSP).toNat)).setReg regSP
        (wrap8 ((((s.setReg r (s.mem.read (s.reg regSP).toNat)).reg regSP).toNat : Int) + 1)))
          |>.advance 2)) := by
  simp only [exec, execPop, popReg_ok r h]
  rfl

theorem exec_pop_underflow (h : 244 ≤ (s.reg regSP).toNat) :
    exec (.pop r) s = .next (s.enterFaulted ⟨.stackUnderflow, .sp (s.reg regSP)⟩ (some opPOP)) := by
  simp only [exec, execPop, popReg_underflow r h]
  rfl

theorem exec_call_ok (h1 : 1 ≤ (s.reg regSP).toNat) (h2 : (s.reg regSP).toNat ≤ 244)
    (hpc : s.pc + 2 ≤ 255) :
    exec (.call r) s = conclude opCALL s (.ok ((s.pushed (BitVec.ofNat 8 (s.pc + 2))).setPc
      ((s.pushed (BitVec.ofNat 8 (s.pc + 2))).reg r).toNat)) := by
  simp only [exec, execCall, stackPush_ok h1 h2 hpc]
  rfl

theorem exec_call_overflow (h : (s.reg regSP).toNat = 0) :
    exec (.call r) s =
      .next (s.enterFaulted ⟨.stackOverflow, .sp (s.reg regSP)⟩ (some opCALL)) := by
  simp only [exec, execCall, stackPush_overflow _ h]
  rfl

theorem exec_call_underflow (h : 244 < (s.reg regSP).toNat) :
    exec (.call r) s =
      .next (s.enterFaulted ⟨.stackUnderflow, .sp (s.reg regSP)⟩ (some opCALL)) := by
  simp only [exec, execCall, stackPush_underflow _ h]
  rfl

theorem exec_call_value (h1 : 1 ≤ (s.reg regSP).toNat) (h2 : (s.reg regSP).toNat ≤ 244)
    (hpc : 255 < s.pc + 2) :
    exec (.call r) s =
      .next (s.enterFaulted ⟨.addressOutOfRange, .value (s.pc + 2)⟩ (some opCALL)) := by
  simp only [exec, execCall, stackPush_value h1 h2 hpc]
  rfl

theorem exec_ret_ok (h : (s.reg regSP).toNat < 244) :
    exec .ret s = conclude opRET s (.ok
      ((s.setReg regSP (wrap8 (((s.reg regSP).toNat : Int) + 1))).setPc
        (s.mem.read (s.reg regSP).toNat).toNat)) := by
  simp only [exec, execRet, stackPop_ok h]
  rfl

theorem exec_ret_underflow (h : 244 ≤ (s.reg regSP).toNat) :
    exec .ret s = .next (s.enterFaulted ⟨.stackUnderflow, .sp (s.reg regSP)⟩ (some opRET)) := by
  simp only [exec, execRet, stackPop_underflow h]
  rfl

theorem exec_iret_underflow (h : 237 ≤ (s.reg regSP).toNat) :
    exec .iret s = .next (s.enterFaulted ⟨.stackUnderflow, .sp (s.reg regSP)⟩ (some opIRET)) := by
  simp only [exec, execIret, returnFromInterrupt_underflow h]
  rfl

end

/-! ## The obligations -/

/-- Settles O28: the byte pushed is the register's after the push. -/
theorem pushDecrementsThenStores : Obligations.PushDecrementsThenStores := by
  refine fun r => ⟨encodedAs_encode (.push r), fun s => ⟨fun h1 h2 => ?_,
    fun h => ⟨_, exec_push_overflow r h, rfl⟩, fun h => ⟨_, exec_push_underflow r h, rfl⟩⟩⟩
  obtain ⟨b, hb, hexec⟩ := exec_push_ok r h1 h2
  obtain ⟨t, ht, hreg, hmem, hrest⟩ := conclude_pushed_setPc opPUSH b (s.pc + 2) s
  refine ⟨t, hexec.trans ht, ?_, ?_, hrest⟩
  · rw [hreg, State.toNat_reg_pushed_regSP b h1]
  · rw [hmem, State.read_pushed, hreg, ← hb]

/-- Settles O29: SP is incremented from what the register write left in it. -/
theorem popLoadsThenIncrements : Obligations.PopLoadsThenIncrements := by
  refine fun r => ⟨encodedAs_encode (.pop r), fun s => ⟨fun h => ?_,
    fun h => ⟨_, exec_pop_underflow r h, rfl⟩⟩⟩
  refine ⟨_, exec_pop_ok r h, fun hr => ⟨?_, ?_⟩, ?_, rfl, rfl, rfl, rfl,
    ⟨fun q hq => ?_, fun _ _ => rfl, rfl, rfl, rfl⟩⟩
  · exact (State.reg_setReg_ne _ _ hr).trans (State.reg_setReg_self _ _ _)
  · refine (congrArg BitVec.toNat (State.reg_setReg_self _ _ _)).trans ?_
    rw [State.reg_setReg_ne _ _ hr.symm, toNat_wrap8_succ (by omega)]
  · rintro rfl
    refine (congrArg BitVec.toNat (State.reg_setReg_self _ _ _)).trans ?_
    rw [State.reg_setReg_self]
    exact toNat_wrap8_natCast (_ + 1)
  · simp only [List.mem_cons, List.not_mem_nil, or_false, not_or] at hq
    exact (State.reg_setReg_ne _ _ hq.2).trans (State.reg_setReg_ne _ _ hq.1)

/-- Settles O30: the return address fits a byte, or the push refuses it. -/
theorem callPushesTheReturnAddress : Obligations.CallPushesTheReturnAddress := by
  refine fun r => ⟨encodedAs_encode (.call r), fun s => ⟨fun h1 h2 hpc => ?_,
    fun h => ⟨_, exec_call_overflow r h, rfl⟩, fun h => ⟨_, exec_call_underflow r h, rfl⟩,
    fun h1 h2 hpc => ⟨_, exec_call_value r h1 h2 hpc, rfl⟩⟩⟩
  obtain ⟨t, ht, hreg, hmem, htpc, hrest⟩ :=
    conclude_pushed_setPc opCALL (BitVec.ofNat 8 (s.pc + 2)) _ s
  refine ⟨t, (exec_call_ok r h1 h2 hpc).trans ht, ?_, ?_, ?_, hrest⟩
  · rw [hreg, State.toNat_reg_pushed_regSP _ h1]
  · rw [hmem, State.read_pushed, BitVec.toNat_ofNat, Nat.mod_eq_of_lt (by omega)]
  · rw [htpc, hreg]

/-- Settles O31: the byte popped is the new `pc`. -/
theorem retPopsTheProgramCounter : Obligations.RetPopsTheProgramCounter := by
  refine ⟨encodedAs_encode .ret, fun s => ⟨fun h => ?_, fun h => ⟨_, exec_ret_underflow h, rfl⟩⟩⟩
  refine ⟨_, exec_ret_ok h, rfl, ?_, rfl, rfl, rfl,
    fun _ hq => State.reg_setReg_ne _ _ (List.ne_of_not_mem_cons hq), fun _ _ => rfl, rfl, rfl, rfl⟩
  exact (congrArg BitVec.toNat (State.reg_setReg_self _ _ _)).trans (toNat_wrap8_succ (by omega))

/-- Settles O35: the eight pops of R160 stay below the top exactly while SP + 7 does. -/
theorem iretRestoresAndClearsStatus : Obligations.IretRestoresAndClearsStatus := by
  refine ⟨encodedAs_encode .iret, fun s => ⟨fun h => ?_,
    fun h => ⟨_, exec_iret_underflow (by omega), rfl⟩⟩⟩
  obtain ⟨t, hret, hsp, his, hregs, hframe⟩ := returnFromInterrupt_ok (s := s) (by omega)
  refine ⟨{ t with ir := opIRET }, ?_, hregs, his, hsp, ?_⟩
  · simp only [exec, execIret, hret, conclude_ok]
  · rw [hframe]
    exact ⟨rfl, rfl, rfl, rfl, fun _ _ => rfl, rfl, rfl, rfl⟩

end Sys2Proof.Machine

/-! # Proofs: the interrupt entry

The entry completes inside the bounds of R184 and otherwise keeps the state but for the failure. -/

namespace Sys2Proof.Machine

theorem interruptEntry_of_ok {s t : State} (h : enterInterrupt s = .ok t) :
    interruptEntry s = .next t := by
  simp only [interruptEntry, h]

theorem interruptEntry_of_error {s : State} {f : Failure} (h : enterInterrupt s = .error f) :
    interruptEntry s = .next (s.enterFaulted f none) := by
  simp only [interruptEntry, h]

/-- The eight cells below SP, as a range. -/
theorem mem_entryCells_iff {s : State} (h : 8 ≤ (s.reg regSP).toNat) (a : Nat) :
    a ∈ entryCells s ↔ (s.reg regSP).toNat - 8 ≤ a ∧ a < (s.reg regSP).toNat := by
  simp only [entryCells, List.mem_map, List.mem_range]
  constructor
  · rintro ⟨k, hk, rfl⟩
    omega
  · intro ha
    exact ⟨(s.reg regSP).toNat - 1 - a, by omega, by omega⟩

/-- A completed entry touches no register but SP and no cell outside its eight. -/
theorem enterInterrupt_sameBut {s t : State} (h : enterInterrupt s = .ok t) :
    SameRegsBut [regSP] s t ∧ SameCellsBut (entryCells s) s t := by
  obtain ⟨h1, h2, hpc⟩ := enterInterrupt_bounds h
  obtain ⟨t', ht', -, hregs, -, -, hcells, -⟩ := enterInterrupt_ok h1 h2 hpc
  cases h.symm.trans ht'
  refine ⟨fun r hr => hregs r (List.ne_of_not_mem_cons hr), fun a ha => hcells a ?_⟩
  rw [mem_entryCells_iff h1] at ha
  omega

/-! ## The obligations -/

/-- Settles O15: the eight pushes inside the bounds. -/
theorem interruptEntrySavesPcAndRegisters : Obligations.InterruptEntrySavesPcAndRegisters := by
  intro s h1 h2 hpc
  obtain ⟨t, ht, hsp, -, hsaved, hregs, -, -, hframe⟩ := enterInterrupt_ok h1 h2 hpc
  obtain ⟨hsameRegs, hsameCells⟩ := enterInterrupt_sameBut ht
  refine ⟨t, interruptEntry_of_ok ht, hsp, hsameRegs, ?_, hregs, hsameCells, ?_⟩
  · rw [hsaved, BitVec.toNat_ofNat, Nat.mod_eq_of_lt (by omega)]
  · rw [hframe]
    exact ⟨rfl, rfl, rfl, rfl, rfl, rfl, rfl⟩

/-- Settles O16: the failures of the entry in the order of its checks. -/
theorem interruptEntryFailures : Obligations.InterruptEntryFailures := by
  intro s
  obtain ⟨hover, hunder, hvalue⟩ := enterInterrupt_error s
  exact ⟨fun h => ⟨_, interruptEntry_of_error (hover h), rfl⟩,
    fun h => ⟨_, interruptEntry_of_error (hunder h), rfl⟩,
    fun h1 h2 hpc => ⟨_, interruptEntry_of_error (hvalue h1 h2 hpc), rfl⟩⟩

end Sys2Proof.Machine

/-! # Proofs: pairs of instructions

Each law puts together what the two instructions are shown to do: what the first leaves at SP is
what the second finds there. -/

namespace Sys2Proof.Machine

/-- Settles O46: POP finds at SP the byte PUSH left there; for R7 it is the decremented SP. -/
theorem pushThenPopRoundTrip : Obligations.PushThenPopRoundTrip := by
  intro s h1 h2
  have hpush : ∀ r : Reg, ∃ t, exec (.push r) s = .next t ∧
      (t.reg regSP).toNat = (s.reg regSP).toNat - 1 ∧
      t.mem.read (t.reg regSP).toNat = t.reg r ∧ (r ≠ regSP → t.reg r = s.reg r) := by
    intro r
    obtain ⟨t, ht, hsp, hmem, -, -, -, -, hframe⟩ := ((pushDecrementsThenStores r).2 s).1 h1 h2
    exact ⟨t, ht, hsp, hsp.symm ▸ hmem, fun hr => hframe.regs r (by simpa using hr)⟩
  refine ⟨fun r => ?_, fun r r2 hr hr2 => ?_⟩
  · obtain ⟨t, ht, hsp, hmem, hkept⟩ := hpush r
    obtain ⟨u, hu, hother, hself, -, -, -, -, hframe⟩ :=
      ((popLoadsThenIncrements r).2 t).1 (by omega)
    have hcell : u.mem.read ((s.reg regSP).toNat - 1) = t.reg r := by
      rw [hframe.cells _ List.not_mem_nil, ← hsp, hmem]
    refine ⟨t, u, ht, hu, ?_⟩
    by_cases hr : r = regSP
    · subst hr
      have hsame : u.reg regSP = s.reg regSP := by
        apply BitVec.eq_of_toNat_eq
        rw [hself rfl, hmem]
        omega
      exact ⟨hsame, hsame, hcell⟩
    · obtain ⟨hread, hinc⟩ := hother hr
      exact ⟨by rw [hread, hmem, hkept hr], BitVec.eq_of_toNat_eq (by omega), hcell⟩
  · obtain ⟨t, ht, hsp, hmem, hkept⟩ := hpush r
    obtain ⟨u, hu, hother, -⟩ := ((popLoadsThenIncrements r2).2 t).1 (by omega)
    obtain ⟨hread, hinc⟩ := hother hr2
    exact ⟨t, u, ht, hu, by rw [hread, hmem, hkept hr], BitVec.eq_of_toNat_eq (by omega)⟩

/-- Settles O47: RET finds at SP the return address the CALL left there. -/
theorem callThenRetResumes : Obligations.CallThenRetResumes := by
  intro r s h1 h2 hpc
  obtain ⟨t, ht, hsp, hsaved, -⟩ := ((callPushesTheReturnAddress r).2 s).1 h1 h2 (by omega)
  refine ⟨t, ht, fun u husp hcell => ?_⟩
  obtain ⟨v, hv, hvpc, hvsp, -⟩ := (retPopsTheProgramCounter.2 u).1 (by rw [husp]; omega)
  refine ⟨v, hv, ?_, BitVec.eq_of_toNat_eq ?_⟩
  · rw [hvpc, husp, hcell, hsp, hsaved]
  · rw [hvsp, husp]
    omega

/-- A CALL inside the bounds moves SP down by one and keeps the mode. -/
theorem exec_call_sp_mode {r : Reg} {s : State} (h1 : 1 ≤ (s.reg regSP).toNat)
    (h2 : (s.reg regSP).toNat ≤ 244) (hpc : s.pc ≤ 253) :
    ∃ t, exec (.call r) s = .next t ∧ (t.reg regSP).toNat = (s.reg regSP).toNat - 1 ∧
      t.mode = s.mode := by
  obtain ⟨t, ht, hsp, -, -, -, -, -, hframe⟩ :=
    ((callPushesTheReturnAddress r).2 s).1 h1 h2 (by omega)
  exact ⟨t, ht, hsp, hframe.engine.mode⟩

/-- Along a chain of CALLs from the empty stack SP counts down and the mode stays. -/
theorem chainOfCalls_sp_mode {chain : Nat → State} {r : Nat → Reg} {n : Nat}
    (hstart : (chain 0).reg regSP = 244) (hn : n ≤ 244)
    (hcalls : ∀ k, k < n →
      (chain k).pc ≤ 253 ∧ exec (.call (r k)) (chain k) = .next (chain (k + 1)))
    {k : Nat} (hk : k ≤ n) :
    ((chain k).reg regSP).toNat = 244 - k ∧ (chain k).mode = (chain 0).mode := by
  induction k with
  | zero => exact ⟨congrArg BitVec.toNat hstart, rfl⟩
  | succ k ih =>
    obtain ⟨hsp, hmode⟩ := ih (by omega)
    obtain ⟨hpc, hcall⟩ := hcalls k hk
    obtain ⟨t, ht, htsp, htmode⟩ :=
      exec_call_sp_mode (r := r k) (s := chain k) (by omega) (by omega) hpc
    cases hcall.symm.trans ht
    exact ⟨by omega, htmode.trans hmode⟩

/-- Settles O48: at depth 244 SP is 0, where a push overflows. -/
theorem nestedCallsReachDepth244 : Obligations.NestedCallsReachDepth244 := by
  intro chain r n hstart hn hcalls
  have hchain {k : Nat} (hk : k ≤ n) := chainOfCalls_sp_mode hstart hn hcalls hk
  obtain ⟨hsp, -⟩ := hchain le_rfl
  refine ⟨hsp, fun k hk => (hchain hk).2, fun hlt hpc => ?_, fun heq => ?_⟩
  · obtain ⟨t, ht, htsp, htmode⟩ := exec_call_sp_mode (r := r n) (by omega) (by omega) hpc
    exact ⟨t, ht, by omega, htmode⟩
  · have hzero : (chain n).reg regSP = 0 := BitVec.eq_of_toNat_eq (by rw [hsp, heq]; rfl)
    refine ⟨_, exec_call_overflow (r n) (by rw [hzero]; rfl), ?_⟩
    rw [hzero]
    rfl

/-- Settles O49: IRET pops the eight cells the entry pushed, and its R6 = 0 ends the inner loop. -/
theorem interruptEntryThenIretResumes : Obligations.InterruptEntryThenIretResumes := by
  intro s t enabled tick hen h hmode u rest enabled' tick' humode husp hcells hf
  rw [stepWith_of_entersInterrupt hen] at h
  obtain hok | ⟨f, -, rfl⟩ := interruptEntry_inv h
  case inr => cases hmode
  obtain ⟨h1, h2, hpc⟩ := enterInterrupt_bounds hok
  obtain ⟨t', ht', hsp, -, hsaved, hregs, -⟩ := interruptEntrySavesPcAndRegisters s h1 h2 hpc
  cases h.symm.trans ht'
  have hread : ∀ a, (s.reg regSP).toNat - 8 ≤ a → a < (s.reg regSP).toNat →
      u.mem.read a = t.mem.read a :=
    fun a hlo hhi => hcells a ((mem_entryCells_iff h1 a).mpr ⟨hlo, hhi⟩)
  rw [← husp] at hsp
  obtain ⟨v, hv, hvregs, hvis, hvsp, hvpc, -, hvfl, -, -, hvengine⟩ :=
    (iretRestoresAndClearsStatus.2 u).1 (by omega)
  have hvmode : v.mode = .servicing := hvengine.mode.trans humode
  refine ⟨{ v with mode := .running }, ?_, fun r hr => ?_, hvis, ?_, rfl, hvfl⟩
  · rw [stepWith_servicing_of_fetch humode hf, hv, onNext_next,
      endInner_of_servicing hvmode (by rw [hvis]; decide)]
  · change v.reg r = s.reg r
    by_cases hr7 : r = regSP
    · subst hr7
      exact BitVec.eq_of_toNat_eq (by omega)
    · have hlt : r.val < 6 := by
        have hr6 : r.val ≠ 6 := fun e => hr (Fin.ext e)
        have hr7 : r.val ≠ 7 := fun e => hr7 (Fin.ext e)
        omega
      rw [hvregs r hlt, ← hregs r hr7, hread _ (by omega) (by omega)]
      congr 1
      omega
  · change v.pc = s.pc
    rw [hvpc, hread _ (by omega) (by omega), ← hsaved]
    congr 2
    omega

end Sys2Proof.Machine

/-! # Proofs: what an instruction can do

Every instruction either completes, writing what is its own, or enters FAULTED with the state before
it.  `exec_inv` says this once for all 19; what the steps keep follows from it. -/

namespace Sys2Proof.Machine

/-! ## Completion -/

/-- What an instruction that does not fail writes, and what it leaves unchanged. -/
structure Completed (i : Instr) (s t : State) : Prop where
  regs : SameRegsBut (writtenRegs i) s t
  /-- at most one store, to a cell the instruction stores to (R54) -/
  mem : t.mem = s.mem ∨ ∃ a ∈ storedCells s i, ∃ v, t.mem = s.mem.write a v
  /-- a byte as the target of a transfer, else no more than the next address (R23, R145) -/
  pc : t.pc ≤ 255 ∨ t.pc ≤ s.pc + i.format.length
  mode : t.mode = if i = .hlt then .halted else s.mode
  fl : t.fl = s.fl ∨ flagsLegal t.fl = true
  ir : t.ir = opcodeOf i
  fault : t.fault = s.fault
  draws : t.draws = s.draws

/-- Every cell an instruction stores to is inside memory (R50). -/
theorem lt_memSize_of_mem_storedCells {s : State} {i : Instr} {a : Nat} (h : a ∈ storedCells s i) :
    a < memSize := by
  have hbyte : ∀ r, (s.reg r).toNat < 256 := fun r => (s.reg r).isLt
  cases i with
  | st b c =>
    rw [List.mem_singleton.mp h]
    exact hbyte b
  | push r | call r =>
    rw [List.mem_singleton.mp h]
    exact Nat.lt_of_le_of_lt (Nat.sub_le _ 1) (hbyte regSP)
  | _ => cases h

theorem Completed.sameCellsBut {i : Instr} {s t : State} (h : Completed i s t) :
    SameCellsBut (storedCells s i) s t := by
  intro c hc
  obtain hmem | ⟨a, ha, v, hmem⟩ := h.mem
  · rw [hmem]
  · rw [hmem, Memory.read_write_ne s.mem v (ne_of_mem_of_not_mem ha hc).symm]

theorem Completed.wf_mem {i : Instr} {s t : State} (h : Completed i s t) (hs : s.mem.wf = true) :
    t.mem.wf = true := by
  obtain hmem | ⟨a, ha, v, hmem⟩ := h.mem
  · rw [hmem]
    exact hs
  · rw [hmem]
    exact Memory.wf_write hs (lt_memSize_of_mem_storedCells ha) v

theorem flagsLegal_compareFlags (x y : Byte) : flagsLegal (compareFlags x y) = true := by
  unfold compareFlags
  split
  · rfl
  · split <;> rfl

/-! ## Completion of the instructions that share a rule -/

/-- An instruction that writes its one register and advances `pc` past itself. -/
theorem completed_setReg_advance {i : Instr} {d : Reg} (s : State) (v : Byte)
    (hw : writtenRegs i = [d]) (hi : i ≠ .hlt) :
    Completed i s { (s.setReg d v).advance i.format.length with ir := opcodeOf i } :=
  ⟨fun _ hr => s.reg_setReg_ne v (List.ne_of_not_mem_cons (hw ▸ hr)), .inl rfl, .inr le_rfl,
    (if_neg hi).symm, .inl rfl, rfl, rfl, rfl⟩

/-- An instruction that pushes a byte and goes to the address of a byte or to the next address. -/
theorem completed_pushed_setPc {i : Instr} (s : State) (b : Byte) {n : Nat}
    (hw : writtenRegs i = [regSP]) (hc : storedCells s i = [(s.reg regSP).toNat - 1])
    (hi : i ≠ .hlt) (hn : n ≤ 255 ∨ n ≤ s.pc + i.format.length) :
    Completed i s { (s.pushed b).setPc n with ir := opcodeOf i } :=
  ⟨fun _ hr => State.reg_pushed_ne b (List.ne_of_not_mem_cons (hw ▸ hr)),
    .inr ⟨_, hc ▸ List.mem_singleton_self _, b, rfl⟩, hn, (if_neg hi).symm, .inl rfl, rfl, rfl, rfl⟩

/-- An instruction that writes no register and no cell and goes to the address of a byte or past
itself. -/
theorem completed_setPc {i : Instr} (s : State) {n : Nat} (hi : i ≠ .hlt)
    (hn : n ≤ 255 ∨ n ≤ s.pc + i.format.length) :
    Completed i s { s.setPc n with ir := opcodeOf i } :=
  ⟨fun _ _ => rfl, .inl rfl, hn, (if_neg hi).symm, .inl rfl, rfl, rfl, rfl⟩

/-- The target of a branch is the address of a byte or the next address (R145). -/
theorem completed_branch {i : Instr} (s : State) (taken : Bool) (r : Reg) (hi : i ≠ .hlt)
    (hlen : i.format.length = 2) :
    Completed i s { branch taken r s with ir := opcodeOf i } := by
  rw [branch_eq_setPc]
  refine completed_setPc s hi ?_
  cases taken with
  | true => exact .inl (Nat.le_of_lt_succ (s.reg r).isLt)
  | false => exact .inr (by rw [hlen]; exact le_rfl)

/-! ## The stack instructions -/

/-- The instruction completes, or it enters FAULTED with a failure the core raises (R171, R175). -/
def CompletesOrFaults (i : Instr) (s t : State) : Prop :=
  Completed i s t ∨
    ∃ f, f.kind ≠ .unsupportedOperation ∧ t = s.enterFaulted f (some (opcodeOf i))

theorem completesOrFaults_of_fault {i : Instr} {s t : State} {f : Failure}
    (hexec : exec i s = .next (s.enterFaulted f (some (opcodeOf i)))) (h : exec i s = .next t)
    (hkind : f.kind ≠ .unsupportedOperation) : CompletesOrFaults i s t := by
  cases hexec.symm.trans h
  exact .inr ⟨f, hkind, rfl⟩

/-- The bounds of a push: SP is 0, above 244, or between (R58). -/
theorem push_bounds (s : State) :
    (s.reg regSP).toNat = 0 ∨ 244 < (s.reg regSP).toNat ∨
      1 ≤ (s.reg regSP).toNat ∧ (s.reg regSP).toNat ≤ 244 := by
  omega

theorem exec_push_inv {r : Reg} {s t : State} (h : exec (.push r) s = .next t) :
    CompletesOrFaults (.push r) s t := by
  obtain h0 | hhigh | ⟨h1, h2⟩ := push_bounds s
  · exact completesOrFaults_of_fault (exec_push_overflow r h0) h nofun
  · exact completesOrFaults_of_fault (exec_push_underflow r hhigh) h nofun
  · obtain ⟨b, -, hexec⟩ := exec_push_ok r h1 h2
    cases hexec.symm.trans h
    exact .inl (completed_pushed_setPc s b rfl rfl nofun (.inr le_rfl))

theorem exec_call_inv {r : Reg} {s t : State} (h : exec (.call r) s = .next t) :
    CompletesOrFaults (.call r) s t := by
  obtain h0 | hhigh | ⟨h1, h2⟩ := push_bounds s
  · exact completesOrFaults_of_fault (exec_call_overflow r h0) h nofun
  · exact completesOrFaults_of_fault (exec_call_underflow r hhigh) h nofun
  · by_cases hpc : s.pc + 2 ≤ 255
    · cases (exec_call_ok r h1 h2 hpc).symm.trans h
      exact .inl (completed_pushed_setPc s _ rfl rfl nofun (.inl (by omega)))
    · exact completesOrFaults_of_fault (exec_call_value r h1 h2 (by omega)) h nofun

theorem exec_pop_inv {r : Reg} {s t : State} (h : exec (.pop r) s = .next t) :
    CompletesOrFaults (.pop r) s t := by
  by_cases hsp : (s.reg regSP).toNat < 244
  · cases (exec_pop_ok r hsp).symm.trans h
    refine .inl ⟨fun q hq => ?_, .inl rfl, .inr le_rfl, rfl, .inl rfl, rfl, rfl, rfl⟩
    simp only [writtenRegs, List.mem_cons, List.not_mem_nil, or_false, not_or] at hq
    exact (State.reg_setReg_ne _ _ hq.2).trans (State.reg_setReg_ne _ _ hq.1)
  · exact completesOrFaults_of_fault (exec_pop_underflow r (by omega)) h nofun

theorem exec_ret_inv {s t : State} (h : exec .ret s = .next t) : CompletesOrFaults .ret s t := by
  by_cases hsp : (s.reg regSP).toNat < 244
  · cases (exec_ret_ok hsp).symm.trans h
    exact .inl ⟨fun q hq => State.reg_setReg_ne _ _ (List.ne_of_not_mem_cons hq), .inl rfl,
      .inl (Nat.le_of_lt_succ (s.mem.read (s.reg regSP).toNat).isLt), rfl, .inl rfl, rfl, rfl, rfl⟩
  · exact completesOrFaults_of_fault (exec_ret_underflow (by omega)) h nofun

/-- IRET may write every register. -/
theorem mem_writtenRegs_iret (r : Reg) : r ∈ writtenRegs .iret := by
  revert r
  decide

theorem exec_iret_inv {s t : State} (h : exec .iret s = .next t) : CompletesOrFaults .iret s t := by
  by_cases hsp : (s.reg regSP).toNat ≤ 236
  · obtain ⟨u, hu, -, -, -, hframe⟩ := returnFromInterrupt_ok hsp
    simp only [exec, execIret, hu, conclude_ok] at h
    cases h
    rw [hframe]
    exact .inl ⟨fun q hq => absurd (mem_writtenRegs_iret q) hq, .inl rfl,
      .inl (Nat.le_of_lt_succ (s.mem.read ((s.reg regSP).toNat + 7)).isLt), rfl, .inl rfl, rfl, rfl,
      rfl⟩
  · exact completesOrFaults_of_fault (exec_iret_underflow (by omega)) h nofun

/-! ## Every instruction -/

/-- Everything an instruction can do. -/
theorem exec_inv {i : Instr} {s t : State} (h : exec i s = .next t) : CompletesOrFaults i s t := by
  cases i with
  | push r => exact exec_push_inv h
  | pop r => exact exec_pop_inv h
  | call r => exact exec_call_inv h
  | ret => exact exec_ret_inv h
  | iret => exact exec_iret_inv h
  | hlt =>
    cases h
    exact .inl ⟨fun _ _ => rfl, .inl rfl, .inr (Nat.le_add_right _ _), rfl, .inl rfl, rfl, rfl, rfl⟩
  | prn r | pra r =>
    cases h
    exact .inl ⟨fun _ _ => rfl, .inl rfl, .inr le_rfl, rfl, .inl rfl, rfl, rfl, rfl⟩
  | cmp a b =>
    cases h
    exact .inl ⟨fun _ _ => rfl, .inl rfl, .inr le_rfl, rfl,
      .inr (flagsLegal_compareFlags _ _), rfl, rfl, rfl⟩
  | ldi r imm | add r b | mult r b | inc r | dec r =>
    cases h
    exact .inl (completed_setReg_advance s _ rfl nofun)
  | ld a b =>
    rw [exec_ld] at h
    cases h
    exact .inl (completed_setReg_advance s _ rfl nofun)
  | st a b =>
    rw [exec_st] at h
    cases h
    exact .inl ⟨fun _ _ => rfl, .inr ⟨_, List.mem_singleton_self _, _, rfl⟩, .inr le_rfl, rfl,
      .inl rfl, rfl, rfl, rfl⟩
  | jmp r =>
    cases h
    exact .inl (completed_setPc s nofun (.inl (Nat.le_of_lt_succ (s.reg r).isLt)))
  | jeq r | jne r =>
    cases h
    exact .inl (completed_branch s _ r nofun rfl)

/-- Settles O36: a completed instruction writes its own, and a failing one nothing. -/
theorem instructionWritesOnlyItsOwn : Obligations.InstructionWritesOnlyItsOwn := by
  intro i s t h
  obtain hdone | ⟨f, -, rfl⟩ := exec_inv h
  · exact ⟨hdone.regs, hdone.sameCellsBut, hdone.draws⟩
  · exact ⟨fun _ _ => rfl, fun _ _ => rfl, rfl⟩

end Sys2Proof.Machine

/-! # Proofs: what a step can do

A step enters an interrupt, fails with the state before it, or completes a fetched instruction in
one of the two loops.  `stepCase_of_stepWith` says this once; each statement about all steps is read off
the four cases. -/

namespace Sys2Proof.Machine

/-! ## The opcode and the kind in a fault record -/

/-- The opcode byte a failing step reports: none for an interrupt entry or a failed opcode fetch,
else the byte at `pc` (R174). -/
def ReportedOpcode (s : State) (opcode : Option Byte) : Prop :=
  (EntersInterrupt s ∨ 255 < s.pc → opcode = none) ∧
    (ExecutesInstruction s → s.pc ≤ 255 → opcode = some (s.mem.read s.pc))

theorem fetchFailure_kind (p : Nat) (e : DecodeError) :
    (fetchFailure p e).kind ≠ .unsupportedOperation := by
  cases e <;> nofun

theorem enterInterrupt_error_kind {s : State} {f : Failure} (h : enterInterrupt s = .error f) :
    f.kind ≠ .unsupportedOperation := by
  obtain ⟨hover, hunder, hvalue⟩ := enterInterrupt_error s
  by_cases h1 : 8 ≤ (s.reg regSP).toNat
  · by_cases h2 : (s.reg regSP).toNat ≤ 244
    · by_cases hpc : s.pc ≤ 255
      · obtain ⟨t, ht, -⟩ := enterInterrupt_ok h1 h2 hpc
        cases h.symm.trans ht
      · cases h.symm.trans (hvalue h1 h2 (by omega))
        nofun
    · cases h.symm.trans (hunder (by omega))
      nofun
  · cases h.symm.trans (hover (by omega))
    nofun

theorem reportedOpcode_none {s : State} (h : EntersInterrupt s) : ReportedOpcode s none :=
  ⟨fun _ => rfl, fun hx => absurd hx (not_executesInstruction_of_entersInterrupt h)⟩

theorem reportedOpcode_some {s : State} (hx : ExecutesInstruction s) (hpc : s.pc ≤ 255) :
    ReportedOpcode s (some (s.mem.read s.pc)) := by
  refine ⟨?_, fun _ _ => rfl⟩
  rintro (hen | hgt)
  · exact absurd hx (not_executesInstruction_of_entersInterrupt hen)
  · omega

theorem reportedOpcode_of_fetch_error {s : State} (hx : ExecutesInstruction s) {e : DecodeError}
    (h : fetch s = .error e) : ReportedOpcode s (fetchedOpcode e) := by
  rw [fetchedOpcode_of_decode_error h]
  by_cases hpc : s.pc ≤ 255
  · rw [fetchWindow_of_le hpc]
    exact reportedOpcode_some hx hpc
  · rw [fetchWindow_of_gt (by omega)]
    exact ⟨fun _ => rfl, fun _ hle => absurd hle hpc⟩

/-! ## The cases of a step -/

/-- The step is a failure: the state before it, in FAULTED with a failure the core raises. -/
def FailedStep (s t : State) : Prop :=
  ∃ f opcode, f.kind ≠ .unsupportedOperation ∧ ReportedOpcode s opcode ∧ t = s.enterFaulted f opcode

/-- The step executes a fetched instruction that ends in `u`. -/
structure ExecutedStep (i : Instr) (s u : State) : Prop where
  fetched : ∃ rest, fetch s = .ok (i, rest)
  exec : exec i s = .next u
  completed : Completed i s u

/-- What a step does, and the state it leaves. -/
inductive StepCase (enabled tick : Bool) (s : State) : State → Prop where
  /-- an interrupt entry that completes (R184) -/
  | entered {t : State} (hen : EntersInterrupt s) (hok : enterInterrupt s = .ok t) :
      StepCase enabled tick s t
  /-- a failure (R177) -/
  | failed {t : State} (hfail : FailedStep s t) : StepCase enabled tick s t
  /-- an instruction completed in the outer loop (R180) -/
  | outer {i : Instr} {u : State} (hm : s.mode = .running) (his : s.reg regIS ≠ 1)
      (hex : ExecutedStep i s u) : StepCase enabled tick s (endOuter enabled tick u)
  /-- an instruction completed in the inner loop (R183) -/
  | inner {i : Instr} {u : State} (hm : s.mode = .servicing) (hex : ExecutedStep i s u) :
      StepCase enabled tick s (endInner u)

/-- An instruction step completes what it fetched, or it fails (R77). -/
theorem executeOne_completes_or_fails {s u : State} (hx : ExecutesInstruction s)
    (h : executeOne s = .next u) : (∃ i, ExecutedStep i s u) ∨ FailedStep s u := by
  obtain ⟨e, hf, rfl⟩ | ⟨i, rest, hf, hexec⟩ := executeOne_inv h
  · exact .inr ⟨_, _, fetchFailure_kind _ e, reportedOpcode_of_fetch_error hx hf, rfl⟩
  · obtain hdone | ⟨f, hkind, rfl⟩ := exec_inv hexec
    · exact .inl ⟨i, ⟨rest, hf⟩, hexec, hdone⟩
    · obtain ⟨-, hpc, hop⟩ := fetch_ok_inv hf
      exact .inr ⟨f, _, hkind, hop ▸ reportedOpcode_some hx hpc, rfl⟩

theorem FailedStep.mode {s t : State} (h : FailedStep s t) : t.mode = .faulted := by
  obtain ⟨f, opcode, -, -, rfl⟩ := h
  rfl

/-- Everything a step can do. -/
theorem stepCase_of_stepWith {enabled tick : Bool} {s t : State}
    (h : stepWith enabled tick s = .next t) : StepCase enabled tick s t := by
  obtain ⟨hm, his, he⟩ | ⟨hm, his, u, hu, rfl⟩ | ⟨hm, u, hu, rfl⟩ := stepWith_inv h
  · obtain hok | ⟨f, herr, rfl⟩ := interruptEntry_inv he
    · exact .entered ⟨hm, his⟩ hok
    · exact .failed ⟨f, none, enterInterrupt_error_kind herr, reportedOpcode_none ⟨hm, his⟩, rfl⟩
  · obtain ⟨i, hex⟩ | hfail := executeOne_completes_or_fails (.inr ⟨hm, his⟩) hu
    · exact .outer hm his hex
    · rw [endOuter_of_ne_running (by rw [hfail.mode]; nofun)]
      exact .failed hfail
  · obtain ⟨i, hex⟩ | hfail := executeOne_completes_or_fails (.inl hm) hu
    · exact .inner hm hex
    · rw [endInner_of_ne_servicing (by rw [hfail.mode]; nofun)]
      exact .failed hfail

/-! ## What each case leaves -/

theorem enterInterrupt_mode {s t : State} (h : enterInterrupt s = .ok t) : t.mode = .servicing := by
  rw [enterInterrupt_frame h]
  rfl

theorem Completed.mode_cases {i : Instr} {s t : State} (h : Completed i s t) :
    t.mode = s.mode ∨ i = .hlt ∧ t.mode = .halted := by
  by_cases hi : i = .hlt
  · exact .inr ⟨hi, h.mode.trans (if_pos hi)⟩
  · exact .inl (h.mode.trans (if_neg hi))

/-- The register file after a RUNNING instruction step: only an enabled tick writes it. -/
theorem endOuter_reg (enabled tick : Bool) (u : State) (r : Reg) :
    (endOuter enabled tick u).reg r = u.reg r ∨
      enabled = true ∧ tick = true ∧ r = regIS ∧ (endOuter enabled tick u).reg regIS = 1 := by
  by_cases hm : u.mode = .running
  · rw [endOuter_of_running hm]
    by_cases h : enabled = true ∧ tick = true ∧ r = regIS
    · obtain ⟨hen, htick, hr⟩ := h
      exact .inr ⟨hen, htick, hr, (timerSample_reg ..).trans (if_pos ⟨hen, htick, rfl⟩)⟩
    · exact .inl ((timerSample_reg ..).trans (if_neg h))
  · exact .inl (by rw [endOuter_of_ne_running hm])

theorem endOuter_mem (enabled tick : Bool) (u : State) : (endOuter enabled tick u).mem = u.mem := by
  rw [endOuter_frame]

theorem endOuter_ir (enabled tick : Bool) (u : State) : (endOuter enabled tick u).ir = u.ir := by
  rw [endOuter_frame]

theorem endInner_reg (u : State) (r : Reg) : (endInner u).reg r = u.reg r := by
  rw [endInner_frame]
  rfl

theorem endInner_mem (u : State) : (endInner u).mem = u.mem := by
  rw [endInner_frame]

theorem endInner_ir (u : State) : (endInner u).ir = u.ir := by
  rw [endInner_frame]

/-- The inner loop is left for RUNNING, or nothing changes and it stays only with R6 = 1 (R183). -/
theorem endInner_cases (u : State) :
    (endInner u).mode = .running ∨ endInner u = u ∧ (u.mode = .servicing → u.reg regIS = 1) := by
  by_cases hm : u.mode = .servicing
  · by_cases his : u.reg regIS = 1
    · exact .inr ⟨endInner_of_active his, fun _ => his⟩
    · exact .inl (by rw [endInner_of_servicing hm his])
  · exact .inr ⟨endInner_of_ne_servicing hm, fun h => absurd h hm⟩

/-! ## The obligations -/

/-- Settles O37: the registers of each case, an enabled tick apart. -/
theorem registersChangeOnlyByTheirWriters : Obligations.RegistersChangeOnlyByTheirWriters := by
  intro enabled tick s t r h hne
  cases stepCase_of_stepWith h with
  | entered hen hok =>
    refine .inl ⟨hen, by_contra fun hr => hne ?_⟩
    exact (enterInterrupt_sameBut hok).1 r (by simpa using hr)
  | failed hfail =>
    obtain ⟨f, opcode, -, -, rfl⟩ := hfail
    exact absurd rfl hne
  | @outer i u hm his hex =>
    by_cases hr : r ∈ writtenRegs i
    · obtain ⟨rest, hf⟩ := hex.fetched
      exact .inr (.inr ⟨.inr ⟨hm, his⟩, i, rest, hf, hr⟩)
    · rw [← hex.completed.regs r hr] at hne
      obtain hsame | ⟨hen, htick, hris, hone⟩ := endOuter_reg enabled tick u r
      · exact absurd hsame hne
      · exact .inr (.inl ⟨hm, hen, htick, hris, hone⟩)
  | @inner i u hm hex =>
    by_cases hr : r ∈ writtenRegs i
    · obtain ⟨rest, hf⟩ := hex.fetched
      exact .inr (.inr ⟨.inl hm, i, rest, hf, hr⟩)
    · exact absurd ((endInner_reg u r).trans (hex.completed.regs r hr)) hne

/-- Settles O38: the cells of each case. -/
theorem memoryChangesOnlyByStores : Obligations.MemoryChangesOnlyByStores := by
  intro enabled tick s t a h hne
  have hstored {i : Instr} {u : State} (hex : ExecutedStep i s u)
      (hmem : t.mem = u.mem) : ∃ i rest, fetch s = .ok (i, rest) ∧ a ∈ storedCells s i := by
    obtain ⟨rest, hf⟩ := hex.fetched
    rw [hmem] at hne
    exact ⟨i, rest, hf, by_contra fun ha => hne (hex.completed.sameCellsBut a ha)⟩
  cases stepCase_of_stepWith h with
  | entered hen hok =>
    exact .inl ⟨hen, by_contra fun ha => hne ((enterInterrupt_sameBut hok).2 a ha)⟩
  | failed hfail =>
    obtain ⟨f, opcode, -, -, rfl⟩ := hfail
    exact absurd rfl hne
  | outer hm his hex => exact .inr ⟨.inr ⟨hm, his⟩, hstored hex (endOuter_mem _ _ _)⟩
  | inner hm hex => exact .inr ⟨.inl hm, hstored hex (endInner_mem _)⟩

/-- Settles O41: a completed instruction writes its opcode byte, and what follows it keeps `ir`. -/
theorem irHoldsTheFetchedOpcode : Obligations.IrHoldsTheFetchedOpcode := by
  intro enabled tick s t hx h hmode
  have hir {i : Instr} {u : State} (hex : ExecutedStep i s u) : u.ir = s.mem.read s.pc := by
    obtain ⟨rest, hf⟩ := hex.fetched
    obtain ⟨-, -, hop⟩ := fetch_ok_inv hf
    exact hex.completed.ir.trans hop
  cases stepCase_of_stepWith h with
  | entered hen hok => exact absurd hx (not_executesInstruction_of_entersInterrupt hen)
  | failed hfail => exact absurd hfail.mode hmode
  | outer hm his hex => exact (endOuter_ir _ _ _).trans (hir hex)
  | inner hm hex => exact (endInner_ir _).trans (hir hex)

/-- A completed instruction ends in no mode but its own and HALTED, whatever follows it. -/
theorem ExecutedStep.endOuter_mode {i : Instr} {s u : State} (hex : ExecutedStep i s u)
    (enabled tick : Bool) :
    (endOuter enabled tick u).mode = s.mode ∨ (endOuter enabled tick u).mode = .halted := by
  rw [Machine.endOuter_mode]
  exact hex.completed.mode_cases.imp_right And.right

/-- After a completed instruction the inner loop goes on, has ended, or has halted. -/
theorem ExecutedStep.endInner_mode {i : Instr} {s u : State} (hex : ExecutedStep i s u) :
    (endInner u).mode = s.mode ∨ (endInner u).mode = .running ∨ (endInner u).mode = .halted := by
  obtain hrun | ⟨hsame, -⟩ := endInner_cases u
  · exact .inr (.inl hrun)
  · rw [hsame]
    exact hex.completed.mode_cases.imp_right fun h => .inr h.2

/-- Settles O42: only the failing case ends in FAULTED. -/
theorem failingStepKeepsTheState : Obligations.FailingStepKeepsTheState := by
  intro enabled tick s t h hmode
  cases stepCase_of_stepWith h with
  | entered hen hok => cases (enterInterrupt_mode hok).symm.trans hmode
  | failed hfail =>
    obtain ⟨f, opcode, hkind, ⟨hnone, hsome⟩, rfl⟩ := hfail
    exact ⟨f.kind, opcode, f.detail, rfl, hkind, hnone, hsome⟩
  | outer hm his hex =>
    have hend := hex.endOuter_mode enabled tick
    rw [hm, hmode] at hend
    exact absurd hend (by decide)
  | inner hm hex =>
    have hend := hex.endInner_mode
    rw [hm, hmode] at hend
    exact absurd hend (by decide)

/-- Settles O43: a completed instruction that halts is HLT, and nothing follows it. -/
theorem haltedOnlyByHlt : Obligations.HaltedOnlyByHlt := by
  intro enabled tick s t h hmode
  have hhlt {i : Instr} {u : State} (hex : ExecutedStep i s u) (hs : s.mode ≠ .halted)
      (hu : u.mode = .halted) :
      (∃ rest, fetch s = .ok (.hlt, rest)) ∧ u = { s with mode := .halted, ir := 0x01 } := by
    obtain hkept | ⟨rfl, -⟩ := hex.completed.mode_cases
    · exact absurd (hkept.symm.trans hu) hs
    · cases (exec_hlt s).symm.trans hex.exec
      exact ⟨hex.fetched, rfl⟩
  cases stepCase_of_stepWith h with
  | entered hen hok => cases (enterInterrupt_mode hok).symm.trans hmode
  | failed hfail => cases hfail.mode.symm.trans hmode
  | outer hm his hex =>
    rw [endOuter_mode] at hmode
    rw [endOuter_of_ne_running (by rw [hmode]; nofun)]
    exact hhlt hex (by rw [hm]; nofun) hmode
  | @inner i u hm hex =>
    obtain hrun | ⟨hsame, -⟩ := endInner_cases u
    · cases hrun.symm.trans hmode
    · rw [hsame] at hmode ⊢
      exact hhlt hex (by rw [hm]; nofun) hmode

/-- Settles O44: the outer loop never ends in SERVICING; the inner loop stays only with R6 = 1. -/
theorem servicingOnlyByInterruptEntry : Obligations.ServicingOnlyByInterruptEntry := by
  intro enabled tick s t h hmode
  cases stepCase_of_stepWith h with
  | entered hen hok => exact .inl ⟨hen, hok⟩
  | failed hfail => cases hfail.mode.symm.trans hmode
  | outer hm his hex =>
    have hend := hex.endOuter_mode enabled tick
    rw [hm, hmode] at hend
    exact absurd hend (by decide)
  | @inner i u hm hex =>
    obtain hrun | ⟨hsame, hactive⟩ := endInner_cases u
    · cases hrun.symm.trans hmode
    · rw [hsame] at hmode ⊢
      exact .inr ⟨hm, hactive hmode⟩

end Sys2Proof.Machine

/-! # Proofs: memory and the invariant

Memory's canonical form is the 256 cells and nothing else, so what a memory reads determines it.
The invariant holds after reset, and each case of a step keeps it. -/

namespace Sys2Proof.Machine

/-! ## The canonical form -/

/-- A canonical memory is listed from its own first address on. -/
theorem Memory.wfFrom_head {lo k : Nat} {v : Byte} {m : Memory}
    (h : Memory.wfFrom lo ((k, v) :: m) = true) : Memory.wfFrom k ((k, v) :: m) = true := by
  rw [Memory.wfFrom_cons_iff] at h ⊢
  exact ⟨le_rfl, h.2⟩

/-- A listed cell does not read as an unlisted one, so no canonical memory that reads alike begins
above it. -/
theorem Memory.not_wfFrom_of_read_eq {lo lo' k : Nat} {v : Byte} {m m' : Memory}
    (h : Memory.wfFrom lo ((k, v) :: m) = true)
    (hread : ∀ a, a < 256 → Memory.read ((k, v) :: m) a = Memory.read m' a) (hlt : k < lo') :
    Memory.wfFrom lo' m' ≠ true := by
  intro h'
  rw [Memory.wfFrom_cons_iff] at h
  obtain ⟨-, hk, hv, -⟩ := h
  have hcell := hread k hk
  rw [Memory.read_cons_cell, if_pos rfl, Memory.read_of_lt h' hlt] at hcell
  exact hv hcell

theorem Memory.eq_of_read_eq {m m' : Memory} {lo : Nat} (h : Memory.wfFrom lo m = true)
    (h' : Memory.wfFrom lo m' = true) (hread : ∀ a, a < 256 → m.read a = m'.read a) : m = m' := by
  induction m generalizing lo m' with
  | nil =>
    cases m' with
    | nil => rfl
    | cons c rest' =>
      exact absurd rfl (Memory.not_wfFrom_of_read_eq (lo' := c.1 + 1) (m' := []) h'
        (fun a ha => (hread a ha).symm) (Nat.lt_succ_self _))
  | cons c rest ih =>
    obtain ⟨k, v⟩ := c
    cases m' with
    | nil =>
      exact absurd rfl (Memory.not_wfFrom_of_read_eq (lo' := k + 1) (m' := []) h hread
        (Nat.lt_succ_self _))
    | cons c' rest' =>
      obtain ⟨k', v'⟩ := c'
      obtain hlt | rfl | hgt := Nat.lt_trichotomy k k'
      · exact absurd (Memory.wfFrom_head h') (Memory.not_wfFrom_of_read_eq h hread hlt)
      · obtain ⟨-, hk, -, hrest⟩ := (Memory.wfFrom_cons_iff ..).mp h
        obtain ⟨-, -, -, hrest'⟩ := (Memory.wfFrom_cons_iff ..).mp h'
        have hcell := hread k hk
        simp only [Memory.read_cons_cell, if_true] at hcell
        subst hcell
        refine congrArg _ (ih hrest hrest' fun a ha => ?_)
        by_cases hak : k = a
        · rw [Memory.read_of_lt hrest (by omega), Memory.read_of_lt hrest' (by omega)]
        · simpa only [Memory.read_cons_cell, if_neg hak] using hread a ha
      · exact absurd (Memory.wfFrom_head h) (Memory.not_wfFrom_of_read_eq h'
          (fun a ha => (hread a ha).symm) hgt)

/-! ## Reset -/

theorem imageAccepted_iff (image : List Nat) :
    imageAccepted image = true ↔ image.length ≤ 256 ∧ ∀ b ∈ image, b < 256 := by
  simp only [imageAccepted, Bool.and_eq_true, decide_eq_true_eq, List.all_eq_true]
  rfl

theorem resetWithImage_of_accepted {image : List Nat} (h : imageAccepted image = true) :
    State.resetWithImage image = .ok { State.reset with
      mem := Memory.writeBytes State.reset.mem 0 (image.map (BitVec.ofNat 8)) } := if_pos h

theorem resetWithImage_of_not_accepted {image : List Nat} (h : ¬ imageAccepted image = true) :
    State.resetWithImage image = .error .imageNotAccepted := if_neg h

/-- The reset state with any canonical memory satisfies the invariant. -/
theorem inv_reset_with_mem {m : Memory} (h : m.wf = true) : Inv { State.reset with mem := m } where
  pcInRange := Nat.zero_le _
  flagsAreLegal := rfl
  memoryCanonical := h
  servicingActive := nofun
  faultAgrees := rfl

/-! ## The invariant along a step -/

/-- Outside FAULTED there is no fault record. -/
theorem Inv.fault_eq_none {s : State} (h : Inv s) (hm : s.mode ≠ .faulted) : s.fault = none := by
  have hagrees := h.faultAgrees
  cases hf : s.fault with
  | none => rfl
  | some r => simp [faultCoherent, hf, hm] at hagrees

theorem faultCoherent_of_none {t : State} (hf : t.fault = none) (hm : t.mode ≠ .faulted) :
    faultCoherent t = true := by
  simp only [faultCoherent, hf]
  exact decide_eq_true hm

theorem inv_of_enterInterrupt {s t : State} (hs : Inv s) (hen : EntersInterrupt s)
    (hok : enterInterrupt s = .ok t) : Inv t := by
  obtain ⟨hm, his⟩ := hen
  obtain ⟨h1, h2, hpc⟩ := enterInterrupt_bounds hok
  obtain ⟨t', ht', -, hregs, -, -, -, hwf, hframe⟩ := enterInterrupt_ok h1 h2 hpc
  cases hok.symm.trans ht'
  have hfault : t.fault = s.fault := by rw [hframe]
  refine ⟨?_, ?_, hwf hs.memoryCanonical, fun _ => (hregs regIS (by decide)).trans his,
    faultCoherent_of_none (hfault.trans (hs.fault_eq_none (by rw [hm]; nofun)))
      (by rw [enterInterrupt_mode hok]; nofun)⟩
  · rw [hframe]
    exact Nat.le_of_lt (s.mem.read 248).isLt
  · rw [hframe]
    exact hs.flagsAreLegal

theorem inv_of_failedStep {s t : State} (hs : Inv s) (hfail : FailedStep s t) : Inv t := by
  obtain ⟨f, opcode, hkind, -, rfl⟩ := hfail
  exact ⟨hs.pcInRange, hs.flagsAreLegal, hs.memoryCanonical, nofun, by simp [faultCoherent, hkind]⟩

/-- A completed instruction keeps the invariant but for the test of R6, which the end of the step
makes; that end writes no more than registers, the mode and the draw counter. -/
theorem ExecutedStep.inv_of_frame {i : Instr} {s u t : State} (hs : Inv s)
    (hex : ExecutedStep i s u) (hs' : s.mode ≠ .faulted)
    (hframe : t = { u with regs := t.regs, mode := t.mode, draws := t.draws })
    (ht : t.mode ≠ .faulted) (hactive : t.mode = .servicing → t.reg regIS = 1) : Inv t := by
  have hdone := hex.completed
  have hmem : t.mem = u.mem := by rw [hframe]
  have hfl : t.fl = u.fl := by rw [hframe]
  have hfault : t.fault = s.fault := (by rw [hframe] : t.fault = u.fault).trans hdone.fault
  refine ⟨?_, ?_, hmem ▸ hdone.wf_mem hs.memoryCanonical, hactive,
    faultCoherent_of_none (hfault.trans (hs.fault_eq_none hs')) ht⟩
  · obtain ⟨rest, hf⟩ := hex.fetched
    obtain ⟨hfit, -⟩ := fetch_ok_inv hf
    have hpc : t.pc = u.pc := by rw [hframe]
    have hbound := hdone.pc
    omega
  · obtain hsame | hlegal := hdone.fl
    · rw [hfl, hsame]
      exact hs.flagsAreLegal
    · rw [hfl]
      exact hlegal

/-- Every step keeps the invariant. -/
theorem inv_of_stepWith {enabled tick : Bool} {s t : State} (hs : Inv s)
    (h : stepWith enabled tick s = .next t) : Inv t := by
  cases stepCase_of_stepWith h with
  | entered hen hok => exact inv_of_enterInterrupt hs hen hok
  | failed hfail => exact inv_of_failedStep hs hfail
  | @outer i u hm his hex =>
    have hend := hex.endOuter_mode enabled tick
    rw [hm] at hend
    refine hex.inv_of_frame hs (by rw [hm]; nofun) (by rw [endOuter_frame]) ?_ ?_
    · rcases hend with hend | hend <;> rw [hend] <;> nofun
    · rcases hend with hend | hend <;> rw [hend] <;> nofun
  | @inner i u hm hex =>
    have hend := hex.endInner_mode
    rw [hm] at hend
    refine hex.inv_of_frame hs (by rw [hm]; nofun) (by rw [endInner_frame]) ?_ fun hserv => ?_
    · rcases hend with hend | hend | hend <;> rw [hend] <;> nofun
    · obtain hrun | ⟨hsame, hactive⟩ := endInner_cases u
      · cases hrun.symm.trans hserv
      · rw [hsame] at hserv ⊢
        exact hactive hserv

/-! ## The obligations -/

/-- Settles O58: each case of a step keeps the invariant, and `step` is a step at one draw. -/
theorem everyStepKeepsTheInvariant : Obligations.EveryStepKeepsTheInvariant :=
  ⟨fun _ _ _ _ hs h => inv_of_stepWith hs h, fun _ _ hs h => inv_of_stepWith hs h⟩

/-- Settles O52: the least cell in which two canonical lists differ reads differently. -/
theorem canonicalMemoriesReadingAlikeAreEqual : Obligations.CanonicalMemoriesReadingAlikeAreEqual :=
  fun _ _ h h' hread => Memory.eq_of_read_eq h h' hread

/-- Settles O55: the image lies in the cells from 0 on, or it is refused. -/
theorem imageIsLoadedFromZero : Obligations.ImageIsLoadedFromZero := by
  refine fun image => ⟨fun hlen hbytes => ?_, fun hbad => ?_⟩
  · have hread (a : Nat) :=
      Memory.read_writeBytes (image.map (BitVec.ofNat 8)) [] 0 a (by simpa [memSize] using hlen)
    refine ⟨_, resetWithImage_of_accepted ((imageAccepted_iff image).mpr ⟨hlen, hbytes⟩),
      fun k hk => ?_, fun a ha => ?_, rfl⟩
    · refine (congrArg BitVec.toNat (hread k)).trans ?_
      have hbyte := hbytes _ (List.getElem_mem hk)
      simp [hk, Nat.mod_eq_of_lt hbyte]
    · refine (hread a).trans (dif_neg ?_)
      simpa using ha
  · refine resetWithImage_of_not_accepted fun hacc => ?_
    obtain ⟨hlen, hbytes⟩ := (imageAccepted_iff image).mp hacc
    obtain hlong | ⟨b, hb, hbig⟩ := hbad
    · omega
    · have := hbytes b hb
      omega

/-- Settles O57: the image is written byte by byte, and each write keeps the canonical form. -/
theorem imageResetSatisfiesTheInvariant : Obligations.ImageResetSatisfiesTheInvariant := by
  intro image s h
  by_cases hacc : imageAccepted image = true
  · cases (resetWithImage_of_accepted hacc).symm.trans h
    exact inv_reset_with_mem (Memory.wf_writeBytes _ rfl 0)
  · cases (resetWithImage_of_not_accepted hacc).symm.trans h

/-- Settles O54: each field of the reset state. -/
theorem resetValues : Obligations.ResetValues :=
  ⟨by decide, rfl, rfl, rfl, rfl, rfl, fun _ => rfl, rfl, rfl, rfl⟩

/-- Settles O56: the empty memory is canonical. -/
theorem resetSatisfiesTheInvariant : Obligations.ResetSatisfiesTheInvariant :=
  inv_reset_with_mem (m := []) rfl

end Sys2Proof.Machine
